-- ==== Sys2Proof/Word.lean ====
section
/-! DEFINITION. The word types of the machine (00_scope.md R9, 10_state.md R21, R23, R24) and nothing else. -/

namespace Sys2Proof

/-- 8 bits: a general register, a memory byte, a timer's stored value (R21, R26, R60). -/
abbrev Byte := BitVec 8

/-- 16 bits: an instruction word, I, pc, a stack entry (R23, R24, R25, R90). -/
abbrev Word := BitVec 16

/-- A register operand: the 4-bit index itself (30_encoding.md R93, 10_state.md R21). -/
abbrev Reg := BitVec 4

/-- A key identifier, one of 16 (46_input.md R211). -/
abbrev Key := BitVec 4

/-- The flag register VF = V[15] (10_state.md R22). -/
abbrev vf : Reg := 15#4

end Sys2Proof
end

