-- ==== Sys2Proof/Syntax.lean ====
section
/-! DEFINITION. The instructions: one constructor per row of spec/opcode_table.json (30_encoding.md R95).
SYS keeps its ignored address and the two shifts keep their ignored y field, so that an instruction and
its word determine each other. -/

namespace Sys2Proof

inductive Instr where
  /-- 0NNN, `SYS NNN` (R245); the address is ignored. -/
  | sys (nnn : BitVec 12)
  /-- 00E0, `CLS` (R195). -/
  | cls
  /-- 00EE, `RET` (R142). -/
  | ret
  /-- 1NNN, `JP NNN` (R140). -/
  | jp (nnn : BitVec 12)
  /-- 2NNN, `CALL NNN` (R141). -/
  | call (nnn : BitVec 12)
  /-- 3XNN, `SE Vx,NN` (R144). -/
  | seImm (x : Reg) (nn : Byte)
  /-- 4XNN, `SNE Vx,NN` (R145). -/
  | sneImm (x : Reg) (nn : Byte)
  /-- 5XY0, `SE Vx,Vy` (R146). -/
  | seReg (x y : Reg)
  /-- 6XNN, `LD Vx,NN` (R160). -/
  | ldImm (x : Reg) (nn : Byte)
  /-- 7XNN, `ADD Vx,NN` (R162). -/
  | addImm (x : Reg) (nn : Byte)
  /-- 8XY0, `LD Vx,Vy` (R161). -/
  | ldReg (x y : Reg)
  /-- 8XY1, `OR Vx,Vy` (R163). -/
  | orReg (x y : Reg)
  /-- 8XY2, `AND Vx,Vy` (R164). -/
  | andReg (x y : Reg)
  /-- 8XY3, `XOR Vx,Vy` (R165). -/
  | xorReg (x y : Reg)
  /-- 8XY4, `ADD Vx,Vy` (R166). -/
  | addReg (x y : Reg)
  /-- 8XY5, `SUB Vx,Vy` (R167). -/
  | sub (x y : Reg)
  /-- 8XY6, `SHR Vx` (R169); y is ignored. -/
  | shr (x y : Reg)
  /-- 8XY7, `SUBN Vx,Vy` (R168). -/
  | subn (x y : Reg)
  /-- 8XYE, `SHL Vx` (R170); y is ignored. -/
  | shl (x y : Reg)
  /-- 9XY0, `SNE Vx,Vy` (R147). -/
  | sneReg (x y : Reg)
  /-- ANNN, `LD I,NNN` (R180). -/
  | ldI (nnn : BitVec 12)
  /-- BNNN, `JP V0,NNN` (R143). -/
  | jpV0 (nnn : BitVec 12)
  /-- CXNN, `RND Vx,NN` (R190). -/
  | rnd (x : Reg) (nn : Byte)
  /-- DXYN, `DRW Vx,Vy,N` (R196). -/
  | drw (x y : Reg) (n : BitVec 4)
  /-- EX9E, `SKP Vx` (R214). -/
  | skp (x : Reg)
  /-- EXA1, `SKNP Vx` (R215). -/
  | sknp (x : Reg)
  /-- FX07, `LD Vx,DT` (R232). -/
  | ldVxDt (x : Reg)
  /-- FX0A, `LD Vx,K` (R216, R217). -/
  | ldVxK (x : Reg)
  /-- FX15, `LD DT,Vx` (R233). -/
  | ldDtVx (x : Reg)
  /-- FX18, `LD ST,Vx` (R234). -/
  | ldStVx (x : Reg)
  /-- FX1E, `ADD I,Vx` (R181). -/
  | addI (x : Reg)
  /-- FX29, `LD F,Vx` (R182). -/
  | ldF (x : Reg)
  /-- FX33, `LD B,Vx` (R183). -/
  | ldB (x : Reg)
  /-- FX55, `LD [I],Vx` (R184). -/
  | storeRegs (x : Reg)
  /-- FX65, `LD Vx,[I]` (R185). -/
  | loadRegs (x : Reg)
  deriving DecidableEq, Repr

end Sys2Proof
end

