-- ==== Sys2Proof/WellFormed.lean ====
section
/-! DEFINITION. Which instructions are words of their own row. The field types already bound every operand
(30_encoding.md R91), so the one thing left to check is that a SYS address is not that of CLS or RET,
which are matched first (30_encoding.md R94, 48_noop_sys.md R245). -/

namespace Sys2Proof

/-- `i` is the instruction its own word decodes to. -/
def WellFormed (i : Instr) : Bool :=
  match i with
  | .sys nnn => nnn != 0x0E0#12 && nnn != 0x0EE#12
  | .cls | .ret | .jp _ | .call _ | .seImm _ _ | .sneImm _ _ | .seReg _ _ => true
  | .ldImm _ _ | .addImm _ _ | .ldReg _ _ | .orReg _ _ | .andReg _ _ | .xorReg _ _ => true
  | .addReg _ _ | .sub _ _ | .shr _ _ | .subn _ _ | .shl _ _ | .sneReg _ _ => true
  | .ldI _ | .jpV0 _ | .rnd _ _ | .drw _ _ _ | .skp _ | .sknp _ => true
  | .ldVxDt _ | .ldVxK _ | .ldDtVx _ | .ldStVx _ | .addI _ | .ldF _ => true
  | .ldB _ | .storeRegs _ | .loadRegs _ => true

end Sys2Proof
end

