-- ==== Sys2Proof/Decode.lean ====
section
/-! DEFINITION. The decoder (30_encoding.md R94), total on any bytes and rejecting by name, and after it the
encoder, written from the same encoding table (R92, R95). -/

namespace Sys2Proof

/-- Why bytes are no instruction. -/
inductive DecodeReject where
  /-- The word matches no row: the machine then raises F_DECODE (30_encoding.md R97). -/
  | illegal (w : Word)
  /-- Fewer than the two bytes an instruction has (30_encoding.md R90). -/
  | truncated
  deriving DecidableEq, Repr

/-- `op`, w[15:12] (R91). -/
def opOf (w : Word) : BitVec 4 := w.extractLsb' 12 4

/-- `x`, w[11:8] (R91). -/
def xOf (w : Word) : Reg := w.extractLsb' 8 4

/-- `y`, w[7:4] (R91). -/
def yOf (w : Word) : Reg := w.extractLsb' 4 4

/-- `n`, w[3:0] (R91). -/
def nOf (w : Word) : BitVec 4 := w.extractLsb' 0 4

/-- `nn`, w[7:0] (R91). -/
def nnOf (w : Word) : Byte := w.extractLsb' 0 8

/-- `nnn`, w[11:0] (R91). -/
def nnnOf (w : Word) : BitVec 12 := w.extractLsb' 0 12

/-- The decode algorithm of R94, line by line: the first matching line wins. -/
def decodeWord (w : Word) : Except DecodeReject Instr :=
  if w = 0x00E0#16 then .ok .cls
  else if w = 0x00EE#16 then .ok .ret
  else if opOf w = 0x0#4 then .ok (.sys (nnnOf w))
  else if opOf w = 0x1#4 then .ok (.jp (nnnOf w))
  else if opOf w = 0x2#4 then .ok (.call (nnnOf w))
  else if opOf w = 0x3#4 then .ok (.seImm (xOf w) (nnOf w))
  else if opOf w = 0x4#4 then .ok (.sneImm (xOf w) (nnOf w))
  else if opOf w = 0x5#4 ∧ nOf w = 0x0#4 then .ok (.seReg (xOf w) (yOf w))
  else if opOf w = 0x6#4 then .ok (.ldImm (xOf w) (nnOf w))
  else if opOf w = 0x7#4 then .ok (.addImm (xOf w) (nnOf w))
  else if opOf w = 0x8#4 ∧ nOf w = 0x0#4 then .ok (.ldReg (xOf w) (yOf w))
  else if opOf w = 0x8#4 ∧ nOf w = 0x1#4 then .ok (.orReg (xOf w) (yOf w))
  else if opOf w = 0x8#4 ∧ nOf w = 0x2#4 then .ok (.andReg (xOf w) (yOf w))
  else if opOf w = 0x8#4 ∧ nOf w = 0x3#4 then .ok (.xorReg (xOf w) (yOf w))
  else if opOf w = 0x8#4 ∧ nOf w = 0x4#4 then .ok (.addReg (xOf w) (yOf w))
  else if opOf w = 0x8#4 ∧ nOf w = 0x5#4 then .ok (.sub (xOf w) (yOf w))
  else if opOf w = 0x8#4 ∧ nOf w = 0x6#4 then .ok (.shr (xOf w) (yOf w))
  else if opOf w = 0x8#4 ∧ nOf w = 0x7#4 then .ok (.subn (xOf w) (yOf w))
  else if opOf w = 0x8#4 ∧ nOf w = 0xE#4 then .ok (.shl (xOf w) (yOf w))
  else if opOf w = 0x9#4 ∧ nOf w = 0x0#4 then .ok (.sneReg (xOf w) (yOf w))
  else if opOf w = 0xA#4 then .ok (.ldI (nnnOf w))
  else if opOf w = 0xB#4 then .ok (.jpV0 (nnnOf w))
  else if opOf w = 0xC#4 then .ok (.rnd (xOf w) (nnOf w))
  else if opOf w = 0xD#4 then .ok (.drw (xOf w) (yOf w) (nOf w))
  else if opOf w = 0xE#4 ∧ nnOf w = 0x9E#8 then .ok (.skp (xOf w))
  else if opOf w = 0xE#4 ∧ nnOf w = 0xA1#8 then .ok (.sknp (xOf w))
  else if opOf w = 0xF#4 ∧ nnOf w = 0x07#8 then .ok (.ldVxDt (xOf w))
  else if opOf w = 0xF#4 ∧ nnOf w = 0x0A#8 then .ok (.ldVxK (xOf w))
  else if opOf w = 0xF#4 ∧ nnOf w = 0x15#8 then .ok (.ldDtVx (xOf w))
  else if opOf w = 0xF#4 ∧ nnOf w = 0x18#8 then .ok (.ldStVx (xOf w))
  else if opOf w = 0xF#4 ∧ nnOf w = 0x1E#8 then .ok (.addI (xOf w))
  else if opOf w = 0xF#4 ∧ nnOf w = 0x29#8 then .ok (.ldF (xOf w))
  else if opOf w = 0xF#4 ∧ nnOf w = 0x33#8 then .ok (.ldB (xOf w))
  else if opOf w = 0xF#4 ∧ nnOf w = 0x55#8 then .ok (.storeRegs (xOf w))
  else if opOf w = 0xF#4 ∧ nnOf w = 0x65#8 then .ok (.loadRegs (xOf w))
  else .error (.illegal w)

/-- Two bytes as one big-endian word: the first byte is the high one (R64, R90). -/
def wordOf (hi lo : Byte) : Word := hi ++ lo

/-- The high byte of a word, which stands at the lower address (R64). -/
def hiByte (w : Word) : Byte := w.extractLsb' 8 8

/-- The low byte of a word, which stands at the higher address (R64). -/
def loByte (w : Word) : Byte := w.extractLsb' 0 8

/-- The decoder on bytes as they lie in memory, and the bytes after the instruction. -/
def decodeBytes (bytes : List Byte) : Except DecodeReject (Instr × List Byte) :=
  match bytes with
  | hi :: lo :: rest =>
    match decodeWord (wordOf hi lo) with
    | .ok i => .ok (i, rest)
    | .error r => .error r
  | [_] | [] => .error .truncated

/-- Format `NNN` (R92): `o NNN`. -/
def formNNN (op : BitVec 4) (nnn : BitVec 12) : Word := op ++ nnn

/-- Format `XNN` (R92): `o X NN`. Format `X` is this one with a fixed byte for NN. -/
def formXNN (op : BitVec 4) (x : Reg) (nn : Byte) : Word := op ++ x ++ nn

/-- Format `XYN` (R92): `o X Y N`. Format `XY` is this one with a fixed nibble for N. -/
def formXYN (op : BitVec 4) (x y : Reg) (n : BitVec 4) : Word := op ++ x ++ y ++ n

/-- The word of an instruction (R95). -/
def encode (i : Instr) : Word :=
  match i with
  | .sys nnn => formNNN 0x0#4 nnn
  | .cls => 0x00E0#16
  | .ret => 0x00EE#16
  | .jp nnn => formNNN 0x1#4 nnn
  | .call nnn => formNNN 0x2#4 nnn
  | .seImm x nn => formXNN 0x3#4 x nn
  | .sneImm x nn => formXNN 0x4#4 x nn
  | .seReg x y => formXYN 0x5#4 x y 0x0#4
  | .ldImm x nn => formXNN 0x6#4 x nn
  | .addImm x nn => formXNN 0x7#4 x nn
  | .ldReg x y => formXYN 0x8#4 x y 0x0#4
  | .orReg x y => formXYN 0x8#4 x y 0x1#4
  | .andReg x y => formXYN 0x8#4 x y 0x2#4
  | .xorReg x y => formXYN 0x8#4 x y 0x3#4
  | .addReg x y => formXYN 0x8#4 x y 0x4#4
  | .sub x y => formXYN 0x8#4 x y 0x5#4
  | .shr x y => formXYN 0x8#4 x y 0x6#4
  | .subn x y => formXYN 0x8#4 x y 0x7#4
  | .shl x y => formXYN 0x8#4 x y 0xE#4
  | .sneReg x y => formXYN 0x9#4 x y 0x0#4
  | .ldI nnn => formNNN 0xA#4 nnn
  | .jpV0 nnn => formNNN 0xB#4 nnn
  | .rnd x nn => formXNN 0xC#4 x nn
  | .drw x y n => formXYN 0xD#4 x y n
  | .skp x => formXNN 0xE#4 x 0x9E#8
  | .sknp x => formXNN 0xE#4 x 0xA1#8
  | .ldVxDt x => formXNN 0xF#4 x 0x07#8
  | .ldVxK x => formXNN 0xF#4 x 0x0A#8
  | .ldDtVx x => formXNN 0xF#4 x 0x15#8
  | .ldStVx x => formXNN 0xF#4 x 0x18#8
  | .addI x => formXNN 0xF#4 x 0x1E#8
  | .ldF x => formXNN 0xF#4 x 0x29#8
  | .ldB x => formXNN 0xF#4 x 0x33#8
  | .storeRegs x => formXNN 0xF#4 x 0x55#8
  | .loadRegs x => formXNN 0xF#4 x 0x65#8

/-- The bytes of an instruction as they lie in memory, high byte first (R64). -/
def encodeBytes (i : Instr) : List Byte := [hiByte (encode i), loByte (encode i)]

/-- What the decoder reads from an instruction whose bits are `w`, numbered as spec/opcode_table.json
numbers them: one 16-bit word, laid out high byte first (R64). -/
def decodeTableWord (nbits w : Nat) : Option Instr :=
  let word := BitVec.ofNat 16 (w % 2 ^ nbits)
  match decodeBytes [hiByte word, loByte word] with
  | .ok (i, _) => some i
  | .error _ => none

end Sys2Proof
end

