-- ==== Sys2Proof/Config.lean ====
section
/-! DEFINITION. What is fixed for the machine: the parameters of 00_scope.md R5, and the open
parameters of R6 that are free values of the environment or of the implementation. -/

namespace Sys2Proof.Config

/-- `MEM_SIZE`, bytes of the one memory (R5). -/
def memSize : Nat := 4096

/-- `FONT_BASE`, address of the digit-0 sprite (R5). -/
def fontBase : Nat := 0x100

/-- `FONT_STRIDE`, bytes per digit sprite (R5). -/
def fontStride : Nat := 5

/-- `PROG_BASE`, where the image is loaded and execution starts (R5, 70_reset_and_hazards.md R283). -/
def progBase : Nat := 0x200

/-- The most bytes an image may have: `MEM_SIZE - PROG_BASE` (70_reset_and_hazards.md R281, D35). -/
def maxImage : Nat := 3584

/-- `STACK_DEPTH`, return addresses the call stack holds (R5). -/
def stackDepth : Nat := 16

/-- `TICKS_PER_SEC` (R5). -/
def ticksPerSec : Nat := 60

/-- `TICK_US`, microseconds per tick inside a second (R5, 90_conflicts.md C2). -/
def tickUs : Nat := 16667

/-- Microseconds in a whole second, the divisor of 47_timers.md R231. -/
def secondUs : Nat := 1000000

/-- FREE VALUE (log entry 1): how many microseconds pass between clock sample `k` and the one before it.
Nothing constrains it, so the samples are any monotone sequence (47_timers.md R235, D20). -/
opaque elapsed : Nat → Nat

/-- FREE VALUE (log entry 2): the `k`-th byte of the random source (44_random.md R191, D21). -/
opaque rnd : Nat → Byte

/-- FREE VALUE (log entry 3): the open parameter `SELF_JUMP_HALT`, whether the optional tight-loop
detector is present (40_fetch_dispatch.md R126, D25). -/
opaque selfJumpHalt : Bool

end Sys2Proof.Config
end

