-- ==== Sys2Proof/Machine/State.lean ====
section
/-! DEFINITION. The state of the CORE (10_state.md R20), the model's own fields for its environment (R39),
the state after reset (R35), and the reasons a step can stop. Plain data throughout. -/

namespace Sys2Proof.Machine

/-- Memory (R30): the cells that differ from what an unlisted address reads as, addresses rising. -/
abbrev Memory := List Host.Cell

/-- The framebuffer (R29): `fb[y][x]`, 32 rows of 64 pixels, true = lit. -/
abbrev Frame := Vector (Vector Bool 64) 32

/-- A timer (R26): the value last set and the clock sample taken when it was set. -/
structure Timer where
  val : Byte
  tSet : Nat
  deriving DecidableEq, Repr

/-- The run state (R31). -/
inductive RunState where
  | run
  | waitKey
  | halt
  | fault
  deriving DecidableEq, Repr

/-- The fault codes of 60_exceptions.md R251, and `noFault` for a record nothing has written. -/
inductive FaultCode where
  /-- Nothing recorded since reset (the model's own value, log entry 10). -/
  | noFault
  /-- 1, `F_DECODE`. -/
  | decode
  /-- 2, `F_STACK_OVERFLOW`. -/
  | stackOverflow
  /-- 3, `F_STACK_UNDERFLOW`. -/
  | stackUnderflow
  /-- 4, `F_ADDR_CALL`; no encodable call raises it. -/
  | addrCall
  /-- 5, `F_ADDR_BCD`. -/
  | addrBcd
  /-- 6, `F_ADDR_FETCH`. -/
  | addrFetch
  /-- 7, `F_ADDR_STORE`. -/
  | addrStore
  /-- 8, `F_ADDR_LOAD`. -/
  | addrLoad
  /-- 9, `F_ADDR_SPRITE`. -/
  | addrSprite
  deriving DecidableEq, Repr

/-- The fault record (R32): the code, the pc of the instruction that raised it, the word where one was
fetched, and the offending address of an addressing fault. -/
structure FaultRecord where
  code : FaultCode
  pc : Word
  word : Option Word
  addr : Option Word
  deriving DecidableEq, Repr

/-- One atomic step of an agent other than the engine (46_input.md R212, R213; 40_fetch_dispatch.md R127;
70_reset_and_hazards.md R280; 47_timers.md R235, R236). -/
inductive HostEvent where
  /-- `KeyDown(k)` of the input agent. -/
  | keyDown (k : Key)
  /-- `KeyUp(k)` of the input agent. -/
  | keyUp (k : Key)
  /-- The host's explicit halt. -/
  | stop
  /-- Reset with `IMAGE` as its bytes and `MEM_FILL` as the cells where it is not 0. -/
  | reset (image : List Byte) (fill : List Host.Cell)
  /-- Reset with the image given as a program text (30_encoding.md R100), which may be malformed. -/
  | resetText (text : List Char) (fill : List Host.Cell)
  /-- The host polls `dt_value` (47_timers.md R236). -/
  | pollDt
  /-- The host polls `st_value` (47_timers.md R236). -/
  | pollSt
  deriving DecidableEq, Repr

/-- Whose turn it is: the engine's, or the host side's with the event it applies (log entry 4). -/
inductive Turn where
  | engine
  | host (e : HostEvent)
  deriving DecidableEq, Repr

/-- The machine. The fields to `fault` are 10_state.md R20, all of it; the rest is the model's own. -/
structure State where
  /-- `mem[0..4095]` (R30). -/
  mem : Memory
  /-- `V[0..15]` (R21). -/
  v : Vector Byte 16
  /-- The address register I (R23). -/
  i : Word
  /-- The program counter (R24). -/
  pc : Word
  /-- `stack[0..15]` (R25). -/
  stack : Vector Word 16
  /-- The number of stack entries in use, 0..16 (R25). -/
  sp : Fin 17
  /-- The delay timer (R26). -/
  dt : Timer
  /-- The sound timer (R26). -/
  st : Timer
  /-- `key[0..15]`, true = pressed (R27). -/
  keys : Vector Bool 16
  /-- A blocking request is outstanding (R28). -/
  reqPending : Bool
  /-- A key has been handed off and not yet consumed (R28). -/
  respValid : Bool
  /-- The key handed off (R28). -/
  respKey : Key
  /-- The x field of the waiting `LD Vx,K` (R28). -/
  waitX : Reg
  /-- The framebuffer (R29). -/
  fb : Frame
  /-- The run state (R31). -/
  run : RunState
  /-- The fault record (R32). -/
  fault : FaultRecord
  /-- MODEL'S OWN: the latest sample of the monotonic clock (47_timers.md R235; log entry 1). -/
  clock : Nat
  /-- MODEL'S OWN: how many clock samples have been taken (log entry 1). -/
  clockDraws : Nat
  /-- MODEL'S OWN: how many random bytes have been drawn (log entry 2). -/
  rndDraws : Nat
  /-- MODEL'S OWN: the turns still to come; where it is empty the engine moves (log entry 4). -/
  turns : List Turn
  /-- MODEL'S OWN: how many `present()` events have been put out (45_drawing.md R198; log entry 14). -/
  presents : Nat
  /-- MODEL'S OWN: what the host's latest poll of `dt_value` read, none before the first (47_timers.md R236;
  log entry 19). -/
  dtSeen : Option Byte
  /-- MODEL'S OWN: what the host's latest poll of `st_value` read, none before the first (log entry 19). -/
  stSeen : Option Byte
  /-- MODEL'S OWN: the host holds the engine in reset, because the loader refused the image of the latest reset
  (70_reset_and_hazards.md R281, 60_exceptions.md R264; log entry 12). -/
  held : Bool
  deriving DecidableEq, Repr

/-- Why a step has no next state: there is no such reason, so no constructor. The spec's faults are states with
`run = FAULT` (60_exceptions.md R254), and a refused load is a state held in reset (R264). -/
inductive Fault where
  deriving DecidableEq, Repr

/-- Why an instruction has no meaning. -/
inductive Refusal where
  /-- Raised by an arm of exec whose instruction has no meaning yet; no arm is left so. Safe. -/
  | notModelled (mnemonic : String)
  deriving DecidableEq, Repr

/-- What a step of this machine answers. -/
abbrev Result := Host.Outcome State Fault Refusal

/-- All pixels clear (R35, 45_drawing.md R195). -/
def Frame.blank : Frame := Vector.replicate 32 (Vector.replicate 64 false)

/-- The record nothing has written (log entry 10). -/
def FaultRecord.blank : FaultRecord := { code := .noFault, pc := 0#16, word := none, addr := none }

/-- The machine right after reset (10_state.md R35), with no image loaded. Stack entries, `respKey`,
`waitX`, the fault record, the clock and the model's own fields: log entries 8, 9, 10, 11, 1, 2, 4, 14, 19, 12. -/
def State.reset : State where
  mem := []
  v := Vector.replicate 16 0#8
  i := 0#16
  pc := 0x200#16
  stack := Vector.replicate 16 0#16
  sp := 0
  dt := { val := 0#8, tSet := 0 }
  st := { val := 0#8, tSet := 0 }
  keys := Vector.replicate 16 false
  reqPending := false
  respValid := false
  respKey := 0#4
  waitX := 0#4
  fb := Frame.blank
  run := .run
  fault := FaultRecord.blank
  clock := 0
  clockDraws := 0
  rndDraws := 0
  turns := []
  presents := 0
  dtSeen := none
  stSeen := none
  held := false

end Sys2Proof.Machine
end

