-- ==== Sys2Proof/Machine/Memory.lean ====
section
/-! DEFINITION. The one memory (20_memory.md): the font, what an unlisted address reads as, the canonical
form, and the byte primitives with the runs of bytes built on them (R63, R65). -/

namespace Sys2Proof.Machine

/-- The 16 digit sprites of 20_memory.md R62, five rows each, digit 0 first (log entry 7). -/
def fontBytes : List Byte :=
  [0xF0#8, 0x90#8, 0x90#8, 0x90#8, 0xF0#8] ++
  [0x20#8, 0x60#8, 0x20#8, 0x20#8, 0x70#8] ++
  [0xF0#8, 0x10#8, 0xF0#8, 0x80#8, 0xF0#8] ++
  [0xF0#8, 0x10#8, 0xF0#8, 0x10#8, 0xF0#8] ++
  [0x90#8, 0x90#8, 0xF0#8, 0x10#8, 0x10#8] ++
  [0xF0#8, 0x80#8, 0xF0#8, 0x10#8, 0xF0#8] ++
  [0xF0#8, 0x80#8, 0xF0#8, 0x90#8, 0xF0#8] ++
  [0xF0#8, 0x10#8, 0x20#8, 0x40#8, 0x40#8] ++
  [0xF0#8, 0x90#8, 0xF0#8, 0x90#8, 0xF0#8] ++
  [0xF0#8, 0x90#8, 0xF0#8, 0x10#8, 0xF0#8] ++
  [0xF0#8, 0x90#8, 0xF0#8, 0x90#8, 0x90#8] ++
  [0xE0#8, 0x90#8, 0xE0#8, 0x90#8, 0xE0#8] ++
  [0xF0#8, 0x80#8, 0x80#8, 0x80#8, 0xF0#8] ++
  [0xE0#8, 0x90#8, 0x90#8, 0x90#8, 0xE0#8] ++
  [0xF0#8, 0x80#8, 0xF0#8, 0x80#8, 0xF0#8] ++
  [0xF0#8, 0x80#8, 0xF0#8, 0x80#8, 0x80#8]

/-- What an address reads as while nothing is listed for it: the font at 0x100..0x14F (R61, R62), and 0
elsewhere, the recommended instance of `MEM_FILL` (10_state.md R35, D19; log entry 6). -/
def unlisted (a : Nat) : Byte :=
  if Config.fontBase ≤ a then fontBytes.getD (a - Config.fontBase) 0#8 else 0#8

/-- The canonical form from address `lo` on: addresses strictly rising and in memory, and no cell that
says what an unlisted address says. -/
def Memory.wfFrom (lo : Nat) : Memory → Bool
  | [] => true
  | (k, b) :: rest =>
    decide (lo ≤ k) && decide (k < Config.memSize) && b != unlisted k && Memory.wfFrom (k + 1) rest

/-- The canonical form: equal memories are equal lists. -/
def Memory.wf (m : Memory) : Bool := Memory.wfFrom 0 m

/-- `MemRead(a, 1)` (R63). Every rule checks its range first, so `a` is below 4096 wherever the machine
asks (log entry 24). -/
def Memory.read : Memory → Nat → Byte
  | [], a => unlisted a
  | (k, b) :: rest, a => if k = a then b else Memory.read rest a

/-- List a cell at `a`, in place of the one listed there. -/
def Memory.insert (a : Nat) (b : Byte) : Memory → Memory
  | [] => [(a, b)]
  | (k, c) :: rest =>
    if a < k then (a, b) :: (k, c) :: rest
    else if a = k then (a, b) :: rest
    else (k, c) :: Memory.insert a b rest

/-- List nothing at `a`. -/
def Memory.erase (a : Nat) : Memory → Memory
  | [] => []
  | (k, c) :: rest => if a = k then rest else (k, c) :: Memory.erase a rest

/-- `MemWrite(a, 1, b)` (R63), kept canonical. There is no cell outside memory (log entry 24). -/
def Memory.write (m : Memory) (a : Nat) (b : Byte) : Memory :=
  if Config.memSize ≤ a then m
  else if b = unlisted a then m.erase a
  else m.insert a b

/-- `n` single-byte reads at ascending addresses (R65). -/
def Memory.readBytes (m : Memory) (a : Nat) : Nat → List Byte
  | 0 => []
  | n + 1 => m.read a :: Memory.readBytes m (a + 1) n

/-- Single-byte writes at ascending addresses (R65). -/
def Memory.writeBytes (m : Memory) (a : Nat) : List Byte → Memory
  | [] => m
  | b :: rest => Memory.writeBytes (m.write a b) (a + 1) rest

/-- Write each listed cell; what is listed for the font is not `MEM_FILL`'s to say (10_state.md R35). -/
def Memory.fillWith (m : Memory) : List Host.Cell → Memory
  | [] => m
  | (a, b) :: rest =>
    if Config.fontBase ≤ a ∧ a < Config.fontBase + fontBytes.length then Memory.fillWith m rest
    else Memory.fillWith (m.write a b) rest

end Sys2Proof.Machine
end

