-- ==== Sys2Proof/Machine/Ops.lean ====
section
/-! DEFINITION. The named operations over registers, the program counter, the call stack, the clock and the
random source, and the one operation that takes a fault (60_exceptions.md R254). -/

namespace Sys2Proof.Machine

/-- `V[x]` (10_state.md R21). -/
def State.reg (s : State) (x : Reg) : Byte := s.v[x.toNat]'x.isLt

/-- `V[x] <- b`. No register is hardwired (R21). -/
def State.setReg (s : State) (x : Reg) (b : Byte) : State := { s with v := s.v.set x.toNat b x.isLt }

/-- `pc <- (pc + 2) mod 65536`, the default (40_fetch_dispatch.md R123). -/
def State.advance (s : State) : State := { s with pc := s.pc + 2#16 }

/-- How a skip ends: `pc + 4` where the condition holds, else `pc + 2` (41_control_flow.md R148). -/
def State.skipIf (s : State) (c : Bool) : State := { s with pc := if c then s.pc + 4#16 else s.pc + 2#16 }

/-- `pc <- target`. -/
def State.jump (s : State) (target : Word) : State := { s with pc := target }

/-- Push a return address; none where all 16 entries are in use (41_control_flow.md R141). -/
def State.push (s : State) (ret : Word) : Option State :=
  if h : s.sp.val < Config.stackDepth then
    some { s with stack := s.stack.set s.sp.val ret h, sp := ⟨s.sp.val + 1, Nat.succ_lt_succ h⟩ }
  else none

/-- Pop the top of the stack into pc; none where the stack is empty. The entry stays behind as stale
data (41_control_flow.md R142). -/
def State.popToPc (s : State) : Option State :=
  if h : 0 < s.sp.val then
    some { s with
      sp := ⟨s.sp.val - 1, Nat.lt_of_le_of_lt (Nat.sub_le _ _) s.sp.isLt⟩
      pc := s.stack[s.sp.val - 1]'(by have := s.sp.isLt; omega) }
  else none

/-- `raise F(info)`: the whole effect of the engine step that raises (60_exceptions.md R254). The record
takes the code, the pc, the word where one was fetched, and the address; `run` becomes FAULT; nothing
else changes. There is no return from a fault (R255): only reset leaves FAULT. -/
def raise (code : FaultCode) (word : Option Word) (addr : Option Word) (s : State) : Result :=
  .next { s with fault := { code := code, pc := s.pc, word := word, addr := addr }, run := .fault }

/-- One sample of the monotonic clock: the latest one and any number of microseconds more
(47_timers.md R235; log entry 1). -/
def State.now (s : State) : Nat := s.clock + Config.elapsed s.clockDraws

/-- The state once that sample has been taken. -/
def State.sampled (s : State) : State := { s with clock := s.now, clockDraws := s.clockDraws + 1 }

/-- The next byte of the random source (44_random.md R191; log entry 2). -/
def State.rndByte (s : State) : Byte := Config.rnd s.rndDraws

/-- The state once that byte has been consumed. -/
def State.drawn (s : State) : State := { s with rndDraws := s.rndDraws + 1 }

/-- `present()`: an output event, counted and nothing more (45_drawing.md R198; log entry 14). -/
def State.present (s : State) : State := { s with presents := s.presents + 1 }

end Sys2Proof.Machine
end

