-- ==== Sys2Proof/Machine/Operands.lean ====
section
/-! DEFINITION. The operand forms (30_encoding.md R93): immediates zero-extended, the key a register names,
and memory at I plus an index, with the range check every access makes first (20_memory.md R63, R74). -/

namespace Sys2Proof.Machine

/-- `zext_16(nnn)` (R93). -/
def zextAddr (nnn : BitVec 12) : Word := nnn.setWidth 16

/-- `zext_16(V[x])` (R93). -/
def zextByte (b : Byte) : Word := b.setWidth 16

/-- The key a register names: its value mod 16 (46_input.md R214). -/
def keyOf (b : Byte) : Key := BitVec.ofNat 4 (b.toNat % 16)

/-- Whether key `k` is pressed (46_input.md R210). -/
def State.pressed (s : State) (k : Key) : Bool := s.keys[k.toNat]'k.isLt

/-- The address of the byte at I plus `index`, on naturals, so it never wraps (00_scope.md R10, D34). -/
def State.atI (s : State) (index : Nat) : Nat := s.i.toNat + index

/-- The byte at I plus `last` would lie above 0xFFF (20_memory.md R74). -/
def State.beyondMemory (s : State) (last : Nat) : Bool := decide (s.atI last > 4095)

/-- `V[0], …, V[x]` in that order (43_memory_addressing.md R184). -/
def State.regsUpTo (s : State) (x : Reg) : List Byte := s.v.toList.take (x.toNat + 1)

end Sys2Proof.Machine
end

