-- ==== Sys2Proof/Machine/Addressing.lean ====
section
/-! DEFINITION. Memory and addressing instructions (43_memory_addressing.md). Ranges are checked whole, on
naturals, before anything is touched (20_memory.md R63, R74). -/

namespace Sys2Proof.Machine

/-- `LD I,NNN` (R180). -/
def execLdI (nnn : BitVec 12) (s : State) : Result := .next { s with i := zextAddr nnn }.advance

/-- `ADD I,Vx` (R181): modulo 65536, no flag, no bounds check. -/
def execAddI (x : Reg) (s : State) : Result := .next { s with i := s.i + zextByte (s.reg x) }.advance

/-- The address of digit `b mod 16`'s sprite (R182). -/
def digitSprite (b : Byte) : Word :=
  BitVec.ofNat 16 (Config.fontBase + Config.fontStride * (b.toNat % 16))

/-- `LD F,Vx` (R182). -/
def execLdF (x : Reg) (s : State) : Result := .next { s with i := digitSprite (s.reg x) }.advance

/-- Hundreds, tens, ones of a byte (R183). -/
def bcdDigits (b : Byte) : List Byte :=
  [BitVec.ofNat 8 (b.toNat / 100), BitVec.ofNat 8 (b.toNat / 10 % 10), BitVec.ofNat 8 (b.toNat % 10)]

/-- `LD B,Vx` (R183): the three digits at I, I + 1, I + 2. -/
def execLdB (x : Reg) (s : State) : Result :=
  if s.beyondMemory 2 then raise .addrBcd (some (encode (.ldB x))) (some s.i) s
  else .next { s with mem := s.mem.writeBytes (s.atI 0) (bcdDigits (s.reg x)) }.advance

/-- `LD [I],Vx` (R184): V0..Vx to I..I+x; I is not changed (R186). -/
def execStoreRegs (x : Reg) (s : State) : Result :=
  if s.beyondMemory x.toNat then raise .addrStore (some (encode (.storeRegs x))) (some s.i) s
  else .next { s with mem := s.mem.writeBytes (s.atI 0) (s.regsUpTo x) }.advance

/-- The registers with V0..Vx taken from memory at I..I+x and the others as they were (R185). -/
def regsLoaded (x : Reg) (s : State) : Vector Byte 16 :=
  Vector.ofFn fun j => if j.val ≤ x.toNat then s.mem.read (s.atI j.val) else s.v[j.val]

/-- `LD Vx,[I]` (R185): I..I+x to V0..Vx; I is not changed (R186). -/
def execLoadRegs (x : Reg) (s : State) : Result :=
  if s.beyondMemory x.toNat then raise .addrLoad (some (encode (.loadRegs x))) (some s.i) s
  else .next { s with v := regsLoaded x s }.advance

end Sys2Proof.Machine
end

