-- ==== Sys2Proof/Machine/Control.lean ====
section
/-! DEFINITION. Control flow (41_control_flow.md). -/

namespace Sys2Proof.Machine

/-- `JP NNN` (R140). A jump to its own address sets HALT and nothing else where the tight-loop detector is
present (40_fetch_dispatch.md R126). -/
def execJp (nnn : BitVec 12) (s : State) : Result :=
  if zextAddr nnn = s.pc then
    if Config.selfJumpHalt then .next { s with run := .halt } else .next (s.jump (zextAddr nnn))
  else .next (s.jump (zextAddr nnn))

/-- `CALL NNN` (R141): overflow check, target check, push pc + 2, jump. The target check can never hold. -/
def execCall (nnn : BitVec 12) (s : State) : Result :=
  match s.push (s.pc + 2#16) with
  | none => raise .stackOverflow (some (encode (.call nnn))) none s
  | some t =>
    if nnn.toNat > 4095 then raise .addrCall (some (encode (.call nnn))) (some (zextAddr nnn)) s
    else .next (t.jump (zextAddr nnn))

/-- `RET` (R142): underflow check, pop into pc. -/
def execRet (s : State) : Result :=
  match s.popToPc with
  | none => raise .stackUnderflow (some (encode .ret)) none s
  | some t => .next t

/-- `JP V0,NNN` (R143). -/
def execJpV0 (nnn : BitVec 12) (s : State) : Result :=
  .next (s.jump (zextAddr nnn + zextByte (s.reg 0#4)))

/-- `SE Vx,NN` (R144). -/
def execSeImm (x : Reg) (nn : Byte) (s : State) : Result := .next (s.skipIf (s.reg x == nn))

/-- `SNE Vx,NN` (R145). -/
def execSneImm (x : Reg) (nn : Byte) (s : State) : Result := .next (s.skipIf (s.reg x != nn))

/-- `SE Vx,Vy` (R146). -/
def execSeReg (x y : Reg) (s : State) : Result := .next (s.skipIf (s.reg x == s.reg y))

/-- `SNE Vx,Vy` (R147). -/
def execSneReg (x y : Reg) (s : State) : Result := .next (s.skipIf (s.reg x != s.reg y))

end Sys2Proof.Machine
end

