-- ==== Sys2Proof/Machine/Flags.lean ====
section
/-! DEFINITION. Every flag the machine computes (10_state.md R22, 42_register_ops.md R171), the arithmetic it
goes with, done on naturals and narrowed at the end, and the write of result and flag in that order
(00_scope.md R11, 42_register_ops.md R172). -/

namespace Sys2Proof.Machine

/-- A flag's value: 1 or 0 (R22). -/
def flagByte (f : Bool) : Byte := if f then 1#8 else 0#8

/-- Carry out of an 8-bit sum: the exact sum exceeds 255 (R166). -/
def carryOut (a b : Byte) : Bool := decide (a.toNat + b.toNat > 255)

/-- No borrow: minuend at least the subtrahend, equal included (R167, R168). -/
def noBorrow (minuend subtrahend : Byte) : Bool := decide (minuend.toNat ≥ subtrahend.toNat)

/-- The bit a right shift moves out (R169). -/
def lowBit (a : Byte) : Bool := a.getLsbD 0

/-- The bit a left shift moves out (R170). -/
def highBit (a : Byte) : Bool := a.getLsbD 7

/-- `(a + b) mod 256` (R162, R166). -/
def addByte (a b : Byte) : Byte := BitVec.ofNat 8 ((a.toNat + b.toNat) % 256)

/-- `(a + 256 - b) mod 256` (R167). -/
def subByte (a b : Byte) : Byte := BitVec.ofNat 8 ((a.toNat + 256 - b.toNat) % 256)

/-- `a div 2` (R169). -/
def halfByte (a : Byte) : Byte := BitVec.ofNat 8 (a.toNat / 2)

/-- `(a * 2) mod 256` (R170). -/
def doubleByte (a : Byte) : Byte := BitVec.ofNat 8 (a.toNat * 2 % 256)

/-- `V[15] <- 1 if f else 0`. -/
def State.setFlag (s : State) (f : Bool) : State := s.setReg vf (flagByte f)

/-- Write the result, then the flag over it where the destination is VF (R172). -/
def State.setResultAndFlag (s : State) (x : Reg) (result : Byte) (f : Bool) : State :=
  (s.setReg x result).setFlag f

end Sys2Proof.Machine
end

