-- ==== Sys2Proof/Machine/Drawing.lean ====
section
/-! DEFINITION. The framebuffer controller and the drawing instructions (45_drawing.md). -/

namespace Sys2Proof.Machine

/-- `fb[y][x]` (10_state.md R29). -/
def Frame.pixel (fb : Frame) (y : Fin 32) (x : Fin 64) : Bool := (fb[y.val]'y.isLt)[x.val]'x.isLt

/-- `fb[y][x] <- fb[y][x] xor 1`. -/
def Frame.toggle (fb : Frame) (y : Fin 32) (x : Fin 64) : Frame :=
  fb.set y.val ((fb[y.val]'y.isLt).set x.val (!fb.pixel y x) x.isLt) y.isLt

/-- A blit under way: the buffer so far, and whether a set pixel has been cleared. -/
structure Blit where
  fb : Frame
  collision : Bool
  deriving DecidableEq, Repr

/-- A sprite bit of 1 lands on pixel (py, px) (R196). -/
def blitPixel (b : Blit) (py : Fin 32) (px : Fin 64) : Blit :=
  { fb := b.fb.toggle py px, collision := b.collision || b.fb.pixel py px }

/-- The column a pixel lands in: `(x0 + c) mod 64` (R197). -/
def wrapX (n : Nat) : Fin 64 := ⟨n % 64, Nat.mod_lt n (by decide)⟩

/-- The row a pixel lands in: `(y0 + r) mod 32` (R197). -/
def wrapY (n : Nat) : Fin 32 := ⟨n % 32, Nat.mod_lt n (by decide)⟩

/-- One row of a sprite: columns `c, c + 1, …, 7` still to do, bit 7 of the byte the leftmost (R196, R197). -/
def blitCols (x0 : Nat) (py : Fin 32) (byte : Byte) (b : Blit) : List Nat → Blit
  | [] => b
  | c :: cs =>
    blitCols x0 py byte (if byte.getLsbD (7 - c) then blitPixel b py (wrapX (x0 + c)) else b) cs

/-- The rows of a sprite from row `r` on (R196). -/
def blitRows (x0 y0 : Nat) (r : Nat) (b : Blit) : List Byte → Blit
  | [] => b
  | byte :: rest =>
    blitRows x0 y0 (r + 1) (blitCols x0 (wrapY (y0 + r)) byte b [0, 1, 2, 3, 4, 5, 6, 7]) rest

/-- The blit of `DRW`: `n` rows read from memory at I, drawn at (Vx, Vy) (R196). -/
def spriteBlit (x y : Reg) (n : BitVec 4) (s : State) : Blit :=
  blitRows (s.reg x).toNat (s.reg y).toNat 0 { fb := s.fb, collision := false }
    (s.mem.readBytes (s.atI 0) n.toNat)

/-- `CLS` (R195): every pixel 0, `present()`. -/
def execCls (s : State) : Result := .next { s with fb := Frame.blank }.present.advance

/-- `DRW Vx,Vy,N` (R196): the range check (none where n = 0), the blit, VF = collision, `present()`. -/
def execDrw (x y : Reg) (n : BitVec 4) (s : State) : Result :=
  if n.toNat > 0 && s.beyondMemory (n.toNat - 1) then
    raise .addrSprite (some (encode (.drw x y n))) (some s.i) s
  else
    .next ({ s with fb := (spriteBlit x y n s).fb }.setFlag (spriteBlit x y n s).collision).present.advance

end Sys2Proof.Machine
end

