-- ==== Sys2Proof/Machine/Input.lean ====
section
/-! DEFINITION. The input instructions (46_input.md), the blocking read in its two phases. -/

namespace Sys2Proof.Machine

/-- `SKP Vx` (R214). -/
def execSkp (x : Reg) (s : State) : Result := .next (s.skipIf (s.pressed (keyOf (s.reg x))))

/-- `SKNP Vx` (R215). -/
def execSknp (x : Reg) (s : State) : Result := .next (s.skipIf (!s.pressed (keyOf (s.reg x))))

/-- `LD Vx,K`, phase A (R216): issue the request and wait; pc is not changed. -/
def execLdVxK (x : Reg) (s : State) : Result :=
  .next { s with reqPending := true, respValid := false, waitX := x, run := .waitKey }

/-- `LD Vx,K`, phase B (R217): take the key handed off. -/
def takeKey (s : State) : State :=
  { s.setReg s.waitX (s.respKey.setWidth 8) with respValid := false, run := .run }.advance

end Sys2Proof.Machine
end

