-- ==== Sys2Proof/Machine/NoOp.lean ====
section
/-! DEFINITION. The no-op family (48_noop_sys.md). -/

namespace Sys2Proof.Machine

/-- `SYS NNN` (R245): pc + 2 and nothing else; the address is ignored. -/
def execSys (_nnn : BitVec 12) (s : State) : Result := .next s.advance

end Sys2Proof.Machine
end

