-- ==== Sys2Proof/Machine/Random.lean ====
section
/-! DEFINITION. The random-number instruction (44_random.md). -/

namespace Sys2Proof.Machine

/-- `RND` with the byte drawn: `V[x] <- r & nn` (R190). -/
def rndWith (r : Byte) (x : Reg) (nn : Byte) (s : State) : State := (s.setReg x (r &&& nn)).advance

/-- `RND Vx,NN` (R190): consumes one fresh byte of the random source (R191). -/
def execRnd (x : Reg) (nn : Byte) (s : State) : Result := .next (rndWith s.rndByte x nn s.drawn)

end Sys2Proof.Machine
end

