-- ==== Sys2Proof/Machine/Register.lean ====
section
/-! DEFINITION. Register and ALU instructions (42_register_ops.md). Sources are read before anything is
written, and VF is written last (R172). -/

namespace Sys2Proof.Machine

/-- `LD Vx,NN` (R160). -/
def execLdImm (x : Reg) (nn : Byte) (s : State) : Result := .next (s.setReg x nn).advance

/-- `LD Vx,Vy` (R161). -/
def execLdReg (x y : Reg) (s : State) : Result := .next (s.setReg x (s.reg y)).advance

/-- `ADD Vx,NN` (R162): wrapping, no flag. -/
def execAddImm (x : Reg) (nn : Byte) (s : State) : Result :=
  .next (s.setReg x (addByte (s.reg x) nn)).advance

/-- `OR Vx,Vy` (R163). -/
def execOr (x y : Reg) (s : State) : Result := .next (s.setReg x (s.reg x ||| s.reg y)).advance

/-- `AND Vx,Vy` (R164). -/
def execAnd (x y : Reg) (s : State) : Result := .next (s.setReg x (s.reg x &&& s.reg y)).advance

/-- `XOR Vx,Vy` (R165). -/
def execXor (x y : Reg) (s : State) : Result := .next (s.setReg x (s.reg x ^^^ s.reg y)).advance

/-- `ADD Vx,Vy` (R166): VF = carry out. -/
def execAddReg (x y : Reg) (s : State) : Result :=
  .next (s.setResultAndFlag x (addByte (s.reg x) (s.reg y)) (carryOut (s.reg x) (s.reg y))).advance

/-- `SUB Vx,Vy` (R167): minuend Vx, VF = no borrow. -/
def execSub (x y : Reg) (s : State) : Result :=
  .next (s.setResultAndFlag x (subByte (s.reg x) (s.reg y)) (noBorrow (s.reg x) (s.reg y))).advance

/-- `SUBN Vx,Vy` (R168): minuend Vy, result to Vx, VF = no borrow. -/
def execSubn (x y : Reg) (s : State) : Result :=
  .next (s.setResultAndFlag x (subByte (s.reg y) (s.reg x)) (noBorrow (s.reg y) (s.reg x))).advance

/-- `SHR Vx` (R169): Vy is neither read nor written; VF = old bit 0. -/
def execShr (x _y : Reg) (s : State) : Result :=
  .next (s.setResultAndFlag x (halfByte (s.reg x)) (lowBit (s.reg x))).advance

/-- `SHL Vx` (R170): Vy is neither read nor written; VF = old bit 7. -/
def execShl (x _y : Reg) (s : State) : Result :=
  .next (s.setResultAndFlag x (doubleByte (s.reg x)) (highBit (s.reg x))).advance

end Sys2Proof.Machine
end

