-- ==== Sys2Proof/Machine/Timers.lean ====
section
/-! DEFINITION. The countdown timer controller and the timer instructions (47_timers.md). -/

namespace Sys2Proof.Machine

/-- Elapsed 60 Hz ticks after `e` microseconds (R231). -/
def ticksIn (e : Nat) : Nat :=
  Config.ticksPerSec * (e / Config.secondUs) + e % Config.secondUs / Config.tickUs

/-- `TimerValue(T, t)` (R231), for a time `t` at or after the set. -/
def timerValue (T : Timer) (t : Nat) : Byte :=
  if ticksIn (t - T.tSet) ≥ T.val.toNat then 0#8
  else BitVec.ofNat 8 (T.val.toNat - ticksIn (t - T.tSet))

/-- `set(T, v)` at the clock sample `t` (R230): both fields together. -/
def timerSet (v : Byte) (t : Nat) : Timer := { val := v, tSet := t }

/-- `LD Vx,DT` (R232): takes one clock sample. -/
def execLdVxDt (x : Reg) (s : State) : Result :=
  .next (s.sampled.setReg x (timerValue s.dt s.now)).advance

/-- `LD DT,Vx` (R233): takes one clock sample. -/
def execLdDtVx (x : Reg) (s : State) : Result :=
  .next { s.sampled with dt := timerSet (s.reg x) s.now }.advance

/-- `LD ST,Vx` (R234): takes one clock sample. -/
def execLdStVx (x : Reg) (s : State) : Result :=
  .next { s.sampled with st := timerSet (s.reg x) s.now }.advance

end Sys2Proof.Machine
end

