-- ==== Sys2Proof/Machine/Fetch.lean ====
section
/-! DEFINITION. Fetching the word at pc (40_fetch_dispatch.md R121), and placing a word where the next fetch
finds it. -/

namespace Sys2Proof.Machine

/-- `Fetch(pc)`: none where pc + 1 is above 4095, else the big-endian word (R121, 20_memory.md R64). -/
def fetch (s : State) : Option Word :=
  if s.pc.toNat + 1 > 4095 then none
  else some (wordOf (s.mem.read s.pc.toNat) (s.mem.read (s.pc.toNat + 1)))

/-- The turns `ts` with the engine's put first where it is not. -/
def engineFirst (ts : List Turn) : List Turn :=
  match ts with
  | [] => []
  | .engine :: rest => .engine :: rest
  | .host e :: rest => .engine :: .host e :: rest

/-- The word `w` stored at pc, the engine released and running and its turn next, nothing else changed. -/
def placeWord (s : State) (w : Word) : State :=
  { s with
    mem := s.mem.writeBytes s.pc.toNat [hiByte w, loByte w]
    run := .run
    held := false
    turns := engineFirst s.turns }

end Sys2Proof.Machine
end

