-- ==== Sys2Proof/Machine/Loader.lean ====
section
/-! DEFINITION. The program image formats (30_encoding.md R100): a sequence of big-endian words, and its
textual variant. The loader is outside the CORE (00_scope.md R4); its result is the image of a reset event. -/

namespace Sys2Proof.Machine

/-- The image of a sequence of words, each high byte first (R100). -/
def imageOfWords : List Word → List Byte
  | [] => []
  | w :: rest => hiByte w :: loByte w :: imageOfWords rest

/-- The value of a hexadecimal digit, either case. -/
def hexDigit (c : Char) : Option Nat :=
  if '0' ≤ c ∧ c ≤ '9' then some (c.toNat - '0'.toNat)
  else if 'a' ≤ c ∧ c ≤ 'f' then some (c.toNat - 'a'.toNat + 10)
  else if 'A' ≤ c ∧ c ≤ 'F' then some (c.toNat - 'A'.toNat + 10)
  else none

/-- The number a run of hexadecimal digits spells after `acc`. -/
def hexNumber (acc : Nat) : List Char → Option Nat
  | [] => some acc
  | c :: rest =>
    match hexDigit c with
    | some d => hexNumber (16 * acc + d) rest
    | none => none

/-- A token after its `0x`: one to four hexadecimal digits, else malformed (log entry 20). -/
def hexWord (cs : List Char) : Option Word :=
  if cs = [] ∨ cs.length > 4 then none else (hexNumber 0 cs).map (BitVec.ofNat 16)

/-- The text cut at each newline, `cur` the line under way, reversed. -/
def splitLines (cur : List Char) : List Char → List (List Char)
  | [] => [cur.reverse]
  | c :: rest => if c = '\n' then cur.reverse :: splitLines [] rest else splitLines (c :: cur) rest

/-- A line without the carriage return of a `\r\n` ending. On the last line, which no newline ends, a carriage return
at the very end is dropped in the same way: R100 names only `\n` and `\r\n` endings, so this is the model's
DESIGN CHOICE (log entry 20). -/
def dropReturn (line : List Char) : List Char :=
  match line.reverse with
  | '\r' :: rest => rest.reverse
  | _ => line

/-- A line without leading white space. -/
def dropBlanks : List Char → List Char
  | [] => []
  | c :: rest => if c = ' ' ∨ c = '\t' then dropBlanks rest else c :: rest

/-- What one line says: nothing where it does not start with `0x`, else a word or a malformed token. -/
def lineWord (line : List Char) : Option (Option Word) :=
  match dropBlanks (dropReturn line) with
  | '0' :: 'x' :: token => some (hexWord token)
  | _ => none

/-- The words of the lines; none where any token is malformed (no partial load). -/
def wordsOfLines : List (List Char) → Option (List Word)
  | [] => some []
  | line :: rest =>
    match lineWord line with
    | none => wordsOfLines rest
    | some none => none
    | some (some w) => (wordsOfLines rest).map (w :: ·)

/-- The image a text spells (R100); none where the load fails. -/
def imageOfText (text : List Char) : Option (List Byte) :=
  (wordsOfLines (splitLines [] text)).map imageOfWords

end Sys2Proof.Machine
end

