-- ==== Sys2Proof/Machine/Ports.lean ====
section
/-! DEFINITION. The output ports (10_state.md R33): what the host reads, none of it state. `present` is counted
in State.presents; a poll of a timer is a turn of the host (HostPort.lean). -/

namespace Sys2Proof.Machine

/-- `fb`: one framebuffer bit, readable at any instruction boundary. -/
def fbPort (s : State) (y : Fin 32) (x : Fin 64) : Bool := s.fb.pixel y x

/-- `dt_value`: what a poll of the delay timer reads at the next clock sample (47_timers.md R236,
20_memory.md R78). -/
def dtValue (s : State) : Byte := timerValue s.dt s.now

/-- `st_value`: what a poll of the sound timer reads at the next clock sample (47_timers.md R236). -/
def stValue (s : State) : Byte := timerValue s.st s.now

/-- What the loader reports of the latest load: true where it succeeded (60_exceptions.md R264). -/
def loadPort (s : State) : Bool := !s.held

/-- `status`: the run state and, in FAULT, the fault record. -/
def statusPort (s : State) : RunState × Option FaultRecord :=
  match s.run with
  | .fault => (.fault, some s.fault)
  | .run => (.run, none)
  | .waitKey => (.waitKey, none)
  | .halt => (.halt, none)

/-- The number 60_exceptions.md R251 gives a fault; 0 for none. -/
def FaultCode.number : FaultCode → Nat
  | .noFault => 0
  | .decode => 1
  | .stackOverflow => 2
  | .stackUnderflow => 3
  | .addrCall => 4
  | .addrBcd => 5
  | .addrFetch => 6
  | .addrStore => 7
  | .addrLoad => 8
  | .addrSprite => 9

end Sys2Proof.Machine
end

