-- ==== Sys2Proof/Machine/HostPort.lean ====
section
/-! DEFINITION. The atomic steps of the agents other than the engine: key events (46_input.md R212, R213),
`stop` (40_fetch_dispatch.md R127), reset with its load (70_reset_and_hazards.md R280, R281) and the polls of the
two timers (47_timers.md R236). -/

namespace Sys2Proof.Machine

/-- `KeyDown(k)` (R212): the pressed bit always; the key handed off where a request is pending. -/
def keyDown (k : Key) (s : State) : State :=
  let t := { s with keys := s.keys.set k.toNat true k.isLt }
  if s.reqPending then { t with respKey := k, respValid := true, reqPending := false } else t

/-- `KeyUp(k)` (R213): the pressed bit only; the channel is never touched. -/
def keyUp (k : Key) (s : State) : State := { s with keys := s.keys.set k.toNat false k.isLt }

/-- `stop` (R127): from RUN or WAIT_KEY to HALT with the channel cleared; elsewhere without effect
(40_fetch_dispatch.md R124). -/
def stopRun (s : State) : State :=
  match s.run with
  | .run | .waitKey => { s with run := .halt, reqPending := false, respValid := false }
  | .halt | .fault => s

/-- Memory after a load (10_state.md R35): the fill, and over it the image from 0x200 on; the font is
what the unlisted addresses of its range read as. -/
def loadedMemory (image : List Byte) (fill : List Host.Cell) : Memory :=
  (Memory.fillWith [] fill).writeBytes Config.progBase image

/-- Reset (R280): every piece of the CORE's state at its reset value, memory loaded, the timers set at a
clock sample taken now, the engine released (R281). The clock, the counts of samples, draws and presents, the
turns to come and what the host has polled are the environment's and go on (log entry 17). -/
def resetWith (image : List Byte) (fill : List Host.Cell) (s : State) : State :=
  { State.reset with
    mem := loadedMemory image fill
    dt := { val := 0#8, tSet := s.now }
    st := { val := 0#8, tSet := s.now }
    clock := s.now
    clockDraws := s.clockDraws + 1
    rndDraws := s.rndDraws
    turns := s.turns
    presents := s.presents
    dtSeen := s.dtSeen
    stSeen := s.stSeen }

/-- A refused load (60_exceptions.md R264): no state of the engine is changed, nothing is fatal, and the engine
is left in reset, not started (R281; log entry 12). -/
def refuseLoad (s : State) : State := { s with held := true }

/-- The load of a reset: an image of more than 3584 bytes is refused whole (R281, D35). -/
def loadOrRefuse (image : List Byte) (fill : List Host.Cell) (s : State) : State :=
  if image.length > Config.maxImage then refuseLoad s else resetWith image fill s

/-- A host poll of `dt_value`: one clock sample, and what was read at it; nothing of the CORE is written
(47_timers.md R235, R236; log entry 19). -/
def pollDt (s : State) : State := { s.sampled with dtSeen := some (dtValue s) }

/-- A host poll of `st_value` (47_timers.md R235, R236; log entry 19). -/
def pollSt (s : State) : State := { s.sampled with stSeen := some (stValue s) }

/-- The state after one host event. A malformed program text is a refused load too (R264). -/
def hostStep (e : HostEvent) (s : State) : State :=
  match e with
  | .keyDown k => keyDown k s
  | .keyUp k => keyUp k s
  | .stop => stopRun s
  | .reset image fill => loadOrRefuse image fill s
  | .resetText text fill =>
    match imageOfText text with
    | none => refuseLoad s
    | some image => loadOrRefuse image fill s
  | .pollDt => pollDt s
  | .pollSt => pollSt s

end Sys2Proof.Machine
end

