-- ==== Sys2Proof/Machine/Engine.lean ====
section
/-! DEFINITION. The engine step (40_fetch_dispatch.md R120) and whose turn it is. -/

namespace Sys2Proof.Machine

/-- The engine has an enabled step (R120); held in reset it has none (70_reset_and_hazards.md R281). -/
def engineEnabled (s : State) : Bool :=
  match s.run with
  | .run => !s.held
  | .waitKey => !s.held && s.respValid
  | .halt | .fault => false

/-- Fetch, decode, dispatch; a fetch or decode fault comes before the instruction's own (R120,
60_exceptions.md R253). -/
def runInstruction (s : State) : Result :=
  match fetch s with
  | none => raise .addrFetch none (some s.pc) s
  | some w =>
    match decodeWord w with
    | .error _ => raise .decode (some w) none s
    | .ok i => exec i s

/-- What an enabled engine step does (R120): phase B of the waiting read, or the instruction at pc. -/
def enabledStep (s : State) : Result := if s.run = .waitKey then .next (takeKey s) else runInstruction s

/-- The engine's turn (R120). Where it has no enabled step it idles: nothing changes (log entry 5). -/
def engineStep (s : State) : Result := if engineEnabled s then enabledStep s else .next s

/-- The next turn, the engine's where none is listed (log entry 4). -/
def takeTurn (s : State) : Result :=
  match s.turns with
  | [] => engineStep s
  | .engine :: rest => engineStep { s with turns := rest }
  | .host e :: rest => .next (hostStep e { s with turns := rest })

end Sys2Proof.Machine
end

