-- ==== Sys2Proof/Machine/Step.lean ====
section
/-! DEFINITION. One step of the machine, and the placing of an instruction for the host's questions. -/

namespace Sys2Proof.Machine

/-- One atomic step of whichever agent's turn it is (00_scope.md R8, 40_fetch_dispatch.md R120). -/
def step (s : State) : Host.Outcome State Fault Refusal := takeTurn s

/-- `s` with the instruction whose bits are `w` stored where the next step fetches, high byte first, and
the engine running, not held in reset, and its turn next (log entry 18). -/
def State.withFetchWord (s : State) (nbits w : Nat) : State :=
  placeWord s (BitVec.ofNat 16 (w % 2 ^ nbits))

end Sys2Proof.Machine
end

