-- ==== Sys2Proof/Safety.lean ====
section
/-! DEFINITION. The words claims are stated in: which parts of the state an instruction keeps, the invariant
every step keeps, when an instruction faults, and how a run ends well. -/

namespace Sys2Proof.Machine

/-- The parts of the state besides the numbered registers. -/
inductive Part where
  /-- The address register I. -/
  | i
  /-- The program counter. -/
  | pc
  /-- Any byte of memory. -/
  | mem
  /-- The stack entries and sp. -/
  | stack
  /-- The delay timer. -/
  | dt
  /-- The sound timer. -/
  | st
  /-- The key vector. -/
  | keys
  /-- The request channel and `waitX`. -/
  | channel
  /-- The framebuffer. -/
  | fb
  /-- The run state. -/
  | run
  /-- The fault record. -/
  | fault
  /-- The clock sample and its count. -/
  | clock
  /-- The count of random bytes drawn. -/
  | rnd
  /-- The turns to come. -/
  | turns
  /-- The count of present events. -/
  | presents
  /-- What the host's polls have read. -/
  | polls
  /-- Whether the host holds the engine in reset. -/
  | held
  deriving DecidableEq, Repr

/-- From `s` to `t` every register but those of `rs`, and every part but those of `ps`, is unchanged. Memory
is compared byte by byte, at every address. -/
def KeepsBut (rs : List Reg) (ps : List Part) (s t : State) : Prop :=
  (∀ r, r ∉ rs → t.reg r = s.reg r) ∧
  (Part.i ∉ ps → t.i = s.i) ∧
  (Part.pc ∉ ps → t.pc = s.pc) ∧
  (Part.mem ∉ ps → ∀ a, t.mem.read a = s.mem.read a) ∧
  (Part.stack ∉ ps → t.stack = s.stack ∧ t.sp = s.sp) ∧
  (Part.dt ∉ ps → t.dt = s.dt) ∧
  (Part.st ∉ ps → t.st = s.st) ∧
  (Part.keys ∉ ps → t.keys = s.keys) ∧
  (Part.channel ∉ ps → t.reqPending = s.reqPending ∧ t.respValid = s.respValid ∧
    t.respKey = s.respKey ∧ t.waitX = s.waitX) ∧
  (Part.fb ∉ ps → t.fb = s.fb) ∧
  (Part.run ∉ ps → t.run = s.run) ∧
  (Part.fault ∉ ps → t.fault = s.fault) ∧
  (Part.clock ∉ ps → t.clock = s.clock ∧ t.clockDraws = s.clockDraws) ∧
  (Part.rnd ∉ ps → t.rndDraws = s.rndDraws) ∧
  (Part.turns ∉ ps → t.turns = s.turns) ∧
  (Part.presents ∉ ps → t.presents = s.presents) ∧
  (Part.polls ∉ ps → t.dtSeen = s.dtSeen ∧ t.stSeen = s.stSeen) ∧
  (Part.held ∉ ps → t.held = s.held)

/-- Every byte of memory outside the `len` bytes from `a` on is unchanged. -/
def KeepsBytesOutside (a len : Nat) (s t : State) : Prop :=
  ∀ b, b < a ∨ a + len ≤ b → t.mem.read b = s.mem.read b

/-- The next turn listed is the engine's, or none is listed. -/
def EngineNext (s : State) : Prop := s.turns = [] ∨ s.turns.head? = some Turn.engine

/-- The next turn is the engine's, and the host does not hold it in reset (70_reset_and_hazards.md R281). -/
def EngineTurn (s : State) : Prop := s.held = false ∧ EngineNext s

/-- `s` with the turn it is about to take taken off the list. -/
def turnTaken (s : State) : State := { s with turns := s.turns.tail }

/-- The word at pc is the `LD Vx,K` that is waiting (10_state.md R28). -/
def waitsAtPc (s : State) : Bool :=
  match fetch s with
  | none => false
  | some w =>
    match decodeWord w with
    | .ok (.ldVxK x) => x == s.waitX
    | _ => false

/-- 10_state.md R28: never both channel bits; both 0 unless waiting; while waiting exactly one is set and
`waitX` is the x field of the word at pc. -/
abbrev ChannelInv (s : State) : Prop :=
  ¬(s.reqPending = true ∧ s.respValid = true) ∧
  (s.run ≠ .waitKey → s.reqPending = false ∧ s.respValid = false) ∧
  (s.run = .waitKey → (s.reqPending = true ∨ s.respValid = true) ∧ waitsAtPc s = true)

/-- 47_timers.md R235: no timer was set later than the latest clock sample. -/
abbrev ClockInv (s : State) : Prop := s.dt.tSet ≤ s.clock ∧ s.st.tSet ≤ s.clock

/-- 60_exceptions.md R254: in FAULT the record holds a fault, and pc still addresses its instruction. -/
abbrev FaultInv (s : State) : Prop :=
  s.run = .fault → s.fault.code ≠ .noFault ∧ s.fault.pc = s.pc

/-- What every step keeps. -/
abbrev State.Inv (s : State) : Prop :=
  s.mem.wf = true ∧ ChannelInv s ∧ ClockInv s ∧ FaultInv s

/-- The fault an instruction raises once decoded, by the table of 60_exceptions.md R251 (conditions on the
state before the instruction). -/
def faultOf (i : Instr) (s : State) : Option FaultCode :=
  match i with
  | .call _ => if s.sp.val = 16 then some .stackOverflow else none
  | .ret => if s.sp.val = 0 then some .stackUnderflow else none
  | .ldB _ => if s.i.toNat + 2 > 4095 then some .addrBcd else none
  | .storeRegs x => if s.i.toNat + x.toNat > 4095 then some .addrStore else none
  | .loadRegs x => if s.i.toNat + x.toNat > 4095 then some .addrLoad else none
  | .drw _ _ n => if n.toNat > 0 ∧ s.i.toNat + n.toNat - 1 > 4095 then some .addrSprite else none
  | .sys _ | .cls | .jp _ | .seImm _ _ | .sneImm _ _ | .seReg _ _ | .ldImm _ _ | .addImm _ _ => none
  | .ldReg _ _ | .orReg _ _ | .andReg _ _ | .xorReg _ _ | .addReg _ _ | .sub _ _ | .shr _ _ => none
  | .subn _ _ | .shl _ _ | .sneReg _ _ | .ldI _ | .jpV0 _ | .rnd _ _ | .skp _ | .sknp _ => none
  | .ldVxDt _ | .ldVxK _ | .ldDtVx _ | .ldStVx _ | .addI _ | .ldF _ => none

/-- The families of the opcode table, one per file of instruction rules (41 to 48). -/
inductive Family where
  /-- 48_noop_sys.md. -/
  | noop
  /-- 41_control_flow.md. -/
  | control
  /-- 42_register_ops.md. -/
  | register
  /-- 43_memory_addressing.md. -/
  | addressing
  /-- 44_random.md. -/
  | random
  /-- 45_drawing.md. -/
  | drawing
  /-- 46_input.md. -/
  | input
  /-- 47_timers.md. -/
  | timers
  deriving DecidableEq, Repr

/-- The family of an instruction. -/
def familyOf (i : Instr) : Family :=
  match i with
  | .sys _ => .noop
  | .ret | .jp _ | .call _ | .seImm _ _ | .sneImm _ _ | .seReg _ _ | .sneReg _ _ | .jpV0 _ => .control
  | .ldImm _ _ | .addImm _ _ | .ldReg _ _ | .orReg _ _ | .andReg _ _ | .xorReg _ _ => .register
  | .addReg _ _ | .sub _ _ | .shr _ _ | .subn _ _ | .shl _ _ => .register
  | .ldI _ | .addI _ | .ldF _ | .ldB _ | .storeRegs _ | .loadRegs _ => .addressing
  | .rnd _ _ => .random
  | .cls | .drw _ _ _ => .drawing
  | .skp _ | .sknp _ | .ldVxK _ => .input
  | .ldVxDt _ | .ldDtVx _ | .ldStVx _ => .timers

/-- The six instructions that write VF as a flag (10_state.md R22). -/
def writesFlag (i : Instr) : Bool :=
  match i with
  | .addReg _ _ | .sub _ _ | .subn _ _ | .shr _ _ | .shl _ _ | .drw _ _ _ => true
  | .sys _ | .cls | .ret | .jp _ | .call _ | .seImm _ _ | .sneImm _ _ | .seReg _ _ | .sneReg _ _ => false
  | .ldImm _ _ | .addImm _ _ | .ldReg _ _ | .orReg _ _ | .andReg _ _ | .xorReg _ _ | .ldI _ => false
  | .jpV0 _ | .rnd _ _ | .skp _ | .sknp _ | .ldVxDt _ | .ldVxK _ | .ldDtVx _ | .ldStVx _ => false
  | .addI _ | .ldF _ | .ldB _ | .storeRegs _ | .loadRegs _ => false

/-- The instructions that read or write memory themselves (20_memory.md R68). -/
def reachesMemory (i : Instr) : Bool :=
  match i with
  | .ldB _ | .storeRegs _ | .loadRegs _ | .drw _ _ _ => true
  | .sys _ | .cls | .ret | .jp _ | .call _ | .seImm _ _ | .sneImm _ _ | .seReg _ _ | .sneReg _ _ => false
  | .ldImm _ _ | .addImm _ _ | .ldReg _ _ | .orReg _ _ | .andReg _ _ | .xorReg _ _ | .ldI _ => false
  | .addReg _ _ | .sub _ _ | .subn _ _ | .shr _ _ | .shl _ _ => false
  | .jpV0 _ | .rnd _ _ | .skp _ | .sknp _ | .ldVxDt _ | .ldVxK _ | .ldDtVx _ | .ldStVx _ => false
  | .addI _ | .ldF _ => false

/-- Instructions run one after another, each from the state the one before it left. -/
def runAll : List Instr → State → Result
  | [], s => .next s
  | i :: rest, s =>
    match exec i s with
    | .next t => runAll rest t
    | .fault r => .fault r
    | .refused r => .refused r

/-- A key event (46_input.md R212, R213). -/
def isKeyEvent (e : HostEvent) : Bool :=
  match e with
  | .keyDown _ | .keyUp _ => true
  | .stop | .reset _ _ | .resetText _ _ | .pollDt | .pollSt => false

/-- A key-up event (46_input.md R213). -/
def isKeyUp (e : HostEvent) : Bool :=
  match e with
  | .keyUp _ => true
  | .keyDown _ | .stop | .reset _ _ | .resetText _ _ | .pollDt | .pollSt => false

/-- A reset event, its image given as bytes or as text (70_reset_and_hazards.md R280). -/
def isReset (e : HostEvent) : Bool :=
  match e with
  | .reset _ _ | .resetText _ _ => true
  | .keyDown _ | .keyUp _ | .stop | .pollDt | .pollSt => false

/-- A reset event whose load yields this image, whatever its length, and this fill. -/
def Carries (e : HostEvent) (image : List Byte) (fill : List Host.Cell) : Prop :=
  e = .reset image fill ∨ ∃ text, e = .resetText text fill ∧ imageOfText text = some image

/-- A reset event whose load the loader refuses: an image of more than 3584 bytes, or a malformed text
(60_exceptions.md R264). -/
def LoadRefused (e : HostEvent) : Prop :=
  (∃ image fill, Carries e image fill ∧ image.length > 3584) ∨
    ∃ text fill, e = .resetText text fill ∧ imageOfText text = none

/-- The next turn is a reset. -/
def ResetTurn (s : State) : Prop := ∃ e, isReset e = true ∧ s.turns.head? = some (Turn.host e)

/-- The registers an instruction may write, flag included (30_encoding.md R95, column "Writes"). -/
def destinations (i : Instr) : List Reg :=
  match i with
  | .ldImm x _ | .addImm x _ | .ldReg x _ | .orReg x _ | .andReg x _ | .xorReg x _ | .rnd x _ => [x]
  | .addReg x _ | .sub x _ | .shr x _ | .subn x _ | .shl x _ => [x, vf]
  | .drw _ _ _ => [vf]
  | .ldVxDt x => [x]
  | .loadRegs x => (List.range (x.toNat + 1)).map (BitVec.ofNat 4)
  | .sys _ | .cls | .ret | .jp _ | .call _ | .seImm _ _ | .sneImm _ _ | .seReg _ _ | .sneReg _ _ => []
  | .ldI _ | .jpV0 _ | .skp _ | .sknp _ | .ldVxK _ | .ldDtVx _ | .ldStVx _ | .addI _ | .ldF _ => []
  | .ldB _ | .storeRegs _ => []

/-- The parts an instruction that raises no fault may write besides registers: pc, and what the column
"Writes" of 30_encoding.md R95 lists, with the clock and random draws its "Reads" column names. -/
def partsWritten (i : Instr) : List Part :=
  match i with
  | .cls | .drw _ _ _ => [.pc, .fb, .presents]
  | .ret | .call _ => [.pc, .stack]
  | .jp _ => [.pc, .run]
  | .ldI _ | .addI _ | .ldF _ => [.pc, .i]
  | .rnd _ _ => [.pc, .rnd]
  | .ldVxDt _ => [.pc, .clock]
  | .ldDtVx _ => [.pc, .clock, .dt]
  | .ldStVx _ => [.pc, .clock, .st]
  | .ldVxK _ => [.channel, .run]
  | .ldB _ | .storeRegs _ => [.pc, .mem]
  | .sys _ | .seImm _ _ | .sneImm _ _ | .seReg _ _ | .sneReg _ _ | .jpV0 _ | .skp _ | .sknp _ => [.pc]
  | .ldImm _ _ | .addImm _ _ | .ldReg _ _ | .orReg _ _ | .andReg _ _ | .xorReg _ _ => [.pc]
  | .addReg _ _ | .sub _ _ | .shr _ _ | .subn _ _ | .shl _ _ | .loadRegs _ => [.pc]

/-- A sprite bit of 1 lands on pixel (y, x) (45_drawing.md R196, R197): row `r` of the sprite is the byte at
I + r, its column `c` the bit 7 - c. -/
def SpriteLights (s : State) (vx vy : Reg) (n : BitVec 4) (y : Fin 32) (x : Fin 64) : Prop :=
  ∃ r, r < n.toNat ∧ y.val = ((s.reg vy).toNat + r) % 32 ∧
    ∃ c, c < 8 ∧ (s.mem.read (s.i.toNat + r)).getLsbD (7 - c) = true ∧ x.val = ((s.reg vx).toNat + c) % 64

/-- No turn listed is a reset. -/
def noReset (ts : List Turn) : Bool :=
  ts.all fun t =>
    match t with
    | .host e => !isReset e
    | .engine => true

/-- A run ends well only in HALT (70_reset_and_hazards.md R288). -/
def endsWell (s : State) : Bool := s.run == .halt

/-- A run has ended (70_reset_and_hazards.md R288). -/
def runEnded (s : State) : Bool := s.run == .halt || s.run == .fault

end Sys2Proof.Machine
end

