-- ==== Sys2Proof/Certificates/Slice0/Obligations.lean ====
section
/-! DEFINITION. The statements for the provers. Each docstring names the rules of spec/ it formalises. -/

open Sys2Proof Sys2Proof.Machine

/-! Encoding and decoding -/

/-- 30_encoding.md R94, R95: the word of every well-formed instruction decodes to that instruction, every
operand at every value. -/
def Obligations.DecodeOfEncode : Prop :=
  ∀ i : Instr, WellFormed i = true → decodeWord (encode i) = .ok i

/-- 30_encoding.md R94, R95: a word that decodes is the word of the one instruction it decodes to, and that
instruction is well-formed. -/
def Obligations.EncodeOfDecode : Prop :=
  ∀ (w : Word) (i : Instr), decodeWord w = .ok i → encode i = w ∧ WellFormed i = true

/-- 30_encoding.md R97: the words that decode to nothing are those of the five families listed, each
rejected by name. -/
def Obligations.IllegalWordsAreThoseListed : Prop :=
  ∀ w : Word,
    (decodeWord w = .error (.illegal w) ↔
      (w.toNat / 4096 = 0x5 ∧ w.toNat % 16 ≠ 0) ∨
      (w.toNat / 4096 = 0x8 ∧ w.toNat % 16 ∈ [0x8, 0x9, 0xA, 0xB, 0xC, 0xD, 0xF]) ∨
      (w.toNat / 4096 = 0x9 ∧ w.toNat % 16 ≠ 0) ∨
      (w.toNat / 4096 = 0xE ∧ w.toNat % 256 ∉ [0x9E, 0xA1]) ∨
      (w.toNat / 4096 = 0xF ∧
        w.toNat % 256 ∉ [0x07, 0x0A, 0x15, 0x18, 0x1E, 0x29, 0x33, 0x55, 0x65])) ∧
    (∀ r, decodeWord w = .error r → r = .illegal w)

/-- 30_encoding.md R95: words written out from the table, one or two per family. -/
def Obligations.SampleWordsDecode : Prop :=
  decodeWord 0x00E0#16 = .ok .cls ∧ decodeWord 0x00EE#16 = .ok .ret ∧
  decodeWord 0x0123#16 = .ok (.sys 0x123#12) ∧ decodeWord 0xA100#16 = .ok (.ldI 0x100#12) ∧
  decodeWord 0xD005#16 = .ok (.drw 0#4 0#4 5#4) ∧ decodeWord 0x220A#16 = .ok (.call 0x20A#12) ∧
  decodeWord 0x6A2A#16 = .ok (.ldImm 0xA#4 0x2A#8) ∧ decodeWord 0x8127#16 = .ok (.subn 1#4 2#4) ∧
  decodeWord 0xC30F#16 = .ok (.rnd 3#4 0x0F#8) ∧ decodeWord 0xE0A1#16 = .ok (.sknp 0#4) ∧
  decodeWord 0xF30A#16 = .ok (.ldVxK 3#4) ∧ decodeWord 0xF218#16 = .ok (.ldStVx 2#4) ∧
  decodeWord 0xF155#16 = .ok (.storeRegs 1#4)

/-! The step -/

/-- 40_fetch_dispatch.md R121: outside memory the fetch faults, on naturals; inside, the word is the byte at pc
times 256 plus the byte at pc + 1, whatever the parity of pc. That the record's address is pc: log entry 21. -/
def Obligations.FetchInsideAndOutsideMemory : Prop :=
  ∀ s : State,
    (s.pc.toNat + 1 > 4095 → s.run = .run → EngineTurn s →
      step s = .next { turnTaken s with
        run := .fault, fault := { code := .addrFetch, pc := s.pc, word := none, addr := some s.pc } }) ∧
    (s.pc.toNat + 1 ≤ 4095 →
      ∃ w, fetch s = some w ∧
        w.toNat = (s.mem.read s.pc.toNat).toNat * 256 + (s.mem.read (s.pc.toNat + 1)).toNat)

/-- 40_fetch_dispatch.md R120, R122: where the engine runs and has the turn, and the two bytes at pc decode, the
step is that instruction's, the turn taken off the list. -/
def Obligations.StepRunsTheDecodedInstruction : Prop :=
  ∀ (s : State) (i : Instr), s.run = .run → EngineTurn s → s.pc.toNat + 1 ≤ 4095 →
    decodeBytes [s.mem.read s.pc.toNat, s.mem.read (s.pc.toNat + 1)] = .ok (i, []) →
    step s = exec i (turnTaken s)

/-- 40_fetch_dispatch.md R122, 60_exceptions.md R251, R254: a word that matches no row raises F_DECODE. -/
def Obligations.IllegalWordFaults : Prop :=
  ∀ (s : State) (w : Word) (r : DecodeReject), s.run = .run → EngineTurn s → fetch s = some w →
    decodeWord w = .error r →
    step s = .next { turnTaken s with
      run := .fault, fault := { code := .decode, pc := s.pc, word := some w, addr := none } }

/-- 40_fetch_dispatch.md R120, 70_reset_and_hazards.md R281: in HALT, in FAULT, in WAIT_KEY with no key handed off, and
held in reset the engine has no step; that its turn then passes with nothing changed is the model's choice, log
entry 5. -/
def Obligations.EngineWithoutAStepIdles : Prop :=
  ∀ s : State, EngineNext s →
    (s.held = true ∨ s.run = .halt ∨ s.run = .fault ∨ (s.run = .waitKey ∧ s.respValid = false)) →
    step s = .next (turnTaken s)

/-- 40_fetch_dispatch.md R124: what each change of the run state takes. -/
def Obligations.RunStateTransitions : Prop :=
  ∀ s t : State, step s = .next t →
    (s.run = .halt ∨ s.run = .fault → t.run = s.run ∨ ResetTurn s) ∧
    (t.run = .fault → s.run = .fault ∨ (s.run = .run ∧ EngineTurn s)) ∧
    (t.run = .waitKey → s.run = .waitKey ∨
      (s.run = .run ∧ EngineTurn s ∧ ∃ w x, fetch s = some w ∧ decodeWord w = .ok (.ldVxK x))) ∧
    (s.run = .waitKey → t.run = .run → ResetTurn s ∨ (EngineTurn s ∧ s.respValid = true)) ∧
    (t.run = .halt → s.run = .halt ∨ s.turns.head? = some (Turn.host .stop) ∨
      (Config.selfJumpHalt = true ∧ EngineTurn s ∧
        ∃ w nnn, fetch s = some w ∧ decodeWord w = .ok (.jp nnn) ∧ nnn.toNat = s.pc.toNat))

/-- 60_exceptions.md R254, 40_fetch_dispatch.md R128: a step that enters FAULT changes the run state and the
record alone; the record holds a code, the pc, the word where one was fetched, and the offending address. The model's
reading of which address that is: log entry 21. -/
def Obligations.FaultEntryIsPrecise : Prop :=
  ∀ s t : State, s.run ≠ .fault → step s = .next t → t.run = .fault →
    t = { turnTaken s with run := .fault, fault := t.fault } ∧
    t.fault.code ≠ .noFault ∧ t.fault.pc = s.pc ∧ t.fault.word = fetch s ∧
    (t.fault.code = .addrFetch → t.fault.addr = some s.pc) ∧
    (t.fault.code ∈ [FaultCode.addrBcd, .addrStore, .addrLoad, .addrSprite] → t.fault.addr = some s.i) ∧
    (t.fault.code ∈ [FaultCode.decode, .stackOverflow, .stackUnderflow] → t.fault.addr = none)

/-- 60_exceptions.md R251, R252: every instruction, once decoded, answers a next state, and that state is a fault's
exactly where the table says so, with the code it says. The record's word and address: log entries 13, 21. -/
def Obligations.InstructionsFaultExactlyWhenListed : Prop :=
  ∀ (i : Instr) (s : State), ∃ t, exec i s = .next t ∧
    (∀ c, faultOf i s = some c →
      t = { s with
        run := .fault
        fault := {
          code := c
          pc := s.pc
          word := some (encode i)
          addr := if c = .stackOverflow ∨ c = .stackUnderflow then none else some s.i } }) ∧
    (faultOf i s = none → t.fault = s.fault ∧ (s.run ≠ .fault → t.run ≠ .fault))

/-- Every step answers a next state: the model's choice where the engine has the turn but no enabled step (HALT, FAULT,
WAIT_KEY with no key handed off, held in reset), a turn that passes with nothing changed, log entry 5. By 60_exceptions.md
R264, 70_reset_and_hazards.md R281 the reset whose load is refused (an image longer than 3584 bytes, a malformed text)
changes nothing of the engine and leaves it in reset; how a state held in reset is written down is the model's choice,
log entry 12. -/
def Obligations.EveryStepAnswers : Prop :=
  ∀ s : State, (∃ t, step s = .next t) ∧
    ∀ e rest, s.turns = .host e :: rest → LoadRefused e → step s = .next { s with turns := rest, held := true }

/-! Control flow -/

/-- 48_noop_sys.md R245: every word of high nibble 0 but CLS and RET, which are matched first, advances pc by 2 and
does nothing else. -/
def Obligations.SysOnlyAdvances : Prop :=
  ∀ (nnn : BitVec 12) (s : State),
    (nnn ≠ 0x0E0#12 → nnn ≠ 0x0EE#12 → decodeWord (0x0#4 ++ nnn) = .ok (.sys nnn)) ∧
    decodeWord 0x00E0#16 = .ok .cls ∧ decodeWord 0x00EE#16 = .ok .ret ∧
    exec (.sys nnn) s = .next { s with pc := s.pc + 2#16 }

/-- 41_control_flow.md R140 and, for a jump to its own address, 40_fetch_dispatch.md R126. -/
def Obligations.JpJumpsOrHalts : Prop :=
  ∀ (nnn : BitVec 12) (s : State),
    decodeWord (0x1#4 ++ nnn) = .ok (.jp nnn) ∧
    exec (.jp nnn) s = .next
      (if nnn.setWidth 16 = s.pc ∧ Config.selfJumpHalt = true then { s with run := .halt }
       else { s with pc := nnn.setWidth 16 })

/-- 41_control_flow.md R141: with room, the return address pc + 2 goes to the entry at sp; on a full stack the
fault, with stack, sp and pc unchanged; the target is never outside memory. The record's fields: log entries 13, 21. -/
def Obligations.CallPushesOrOverflows : Prop :=
  ∀ (nnn : BitVec 12) (s : State),
    decodeWord (0x2#4 ++ nnn) = .ok (.call nnn) ∧ nnn.toNat ≤ 4095 ∧
    (∀ h : s.sp.val < 16, exec (.call nnn) s = .next { s with
      stack := s.stack.set s.sp.val (s.pc + 2#16) h
      sp := ⟨s.sp.val + 1, Nat.succ_lt_succ h⟩
      pc := nnn.setWidth 16 }) ∧
    (s.sp.val = 16 → exec (.call nnn) s = .next { s with
      run := .fault
      fault := { code := .stackOverflow, pc := s.pc, word := some (0x2#4 ++ nnn), addr := none } })

/-- 41_control_flow.md R142: the old top goes to pc and stays behind as stale data; on an empty stack the fault. The
record's fields: log entries 13, 21. -/
def Obligations.RetPopsOrUnderflows : Prop :=
  ∀ s : State,
    decodeWord 0x00EE#16 = .ok .ret ∧
    (s.sp.val ≠ 0 → ∃ t, exec .ret s = .next t ∧ t.sp.val = s.sp.val - 1 ∧
      s.stack[s.sp.val - 1]? = some t.pc ∧ t.stack = s.stack ∧ KeepsBut [] [.pc, .stack] s t) ∧
    (s.sp.val = 0 → exec .ret s = .next { s with
      run := .fault
      fault := { code := .stackUnderflow, pc := s.pc, word := some 0x00EE#16, addr := none } })

/-- 41_control_flow.md R143: the sum is exact, it never wraps at 16 bits, and it is not checked. -/
def Obligations.JpV0AddsV0 : Prop :=
  ∀ (nnn : BitVec 12) (s : State),
    decodeWord (0xB#4 ++ nnn) = .ok (.jpV0 nnn) ∧
    ∃ t, exec (.jpV0 nnn) s = .next t ∧ t.pc.toNat = nnn.toNat + (s.reg 0#4).toNat ∧
      KeepsBut [] [.pc] s t

/-- 41_control_flow.md R144, R145. -/
def Obligations.SkipsOnImmediate : Prop :=
  ∀ (x : Reg) (nn : Byte) (s : State),
    decodeWord (0x3#4 ++ x ++ nn) = .ok (.seImm x nn) ∧
    decodeWord (0x4#4 ++ x ++ nn) = .ok (.sneImm x nn) ∧
    exec (.seImm x nn) s =
      .next { s with pc := if s.reg x = nn then s.pc + 4#16 else s.pc + 2#16 } ∧
    exec (.sneImm x nn) s =
      .next { s with pc := if s.reg x ≠ nn then s.pc + 4#16 else s.pc + 2#16 }

/-- 41_control_flow.md R146, R147. -/
def Obligations.SkipsOnRegister : Prop :=
  ∀ (x y : Reg) (s : State),
    decodeWord (0x5#4 ++ x ++ y ++ 0x0#4) = .ok (.seReg x y) ∧
    decodeWord (0x9#4 ++ x ++ y ++ 0x0#4) = .ok (.sneReg x y) ∧
    exec (.seReg x y) s =
      .next { s with pc := if s.reg x = s.reg y then s.pc + 4#16 else s.pc + 2#16 } ∧
    exec (.sneReg x y) s =
      .next { s with pc := if s.reg x ≠ s.reg y then s.pc + 4#16 else s.pc + 2#16 }

/-- 41_control_flow.md R149: nested calls that fit the stack, followed by as many returns, leave sp as it was and pc
past the first call; every live entry and everything outside the stack is as it was. -/
def Obligations.NestedCallsReturn : Prop :=
  ∀ (targets : List (BitVec 12)) (s : State), s.sp.val + targets.length ≤ 16 →
    ∃ t, runAll (targets.map Instr.call ++ List.replicate targets.length Instr.ret) s = .next t ∧
      t.sp = s.sp ∧ t.pc = (if targets = [] then s.pc else s.pc + 2#16) ∧
      (∀ k, k < s.sp.val → t.stack[k]? = s.stack[k]?) ∧
      KeepsBut [] [.pc, .stack] s t

/-! Register operations -/

/-- 42_register_ops.md R160, R161. -/
def Obligations.RegisterLoads : Prop :=
  ∀ (x y : Reg) (nn : Byte) (s : State),
    (decodeWord (0x6#4 ++ x ++ nn) = .ok (.ldImm x nn) ∧
      ∃ t, exec (.ldImm x nn) s = .next t ∧ t.reg x = nn ∧ t.pc = s.pc + 2#16 ∧ KeepsBut [x] [.pc] s t) ∧
    (decodeWord (0x8#4 ++ x ++ y ++ 0x0#4) = .ok (.ldReg x y) ∧
      ∃ t, exec (.ldReg x y) s = .next t ∧ t.reg x = s.reg y ∧ t.pc = s.pc + 2#16 ∧
        KeepsBut [x] [.pc] s t)

/-- 42_register_ops.md R162: wraps, and writes no flag. -/
def Obligations.AddImmediateWraps : Prop :=
  ∀ (x : Reg) (nn : Byte) (s : State),
    decodeWord (0x7#4 ++ x ++ nn) = .ok (.addImm x nn) ∧
    ∃ t, exec (.addImm x nn) s = .next t ∧
      (t.reg x).toNat = ((s.reg x).toNat + nn.toNat) % 256 ∧ t.pc = s.pc + 2#16 ∧ KeepsBut [x] [.pc] s t

/-- 42_register_ops.md R163, R164, R165: bit by bit, and no flag. -/
def Obligations.BitwiseOperations : Prop :=
  ∀ (x y : Reg) (s : State),
    (decodeWord (0x8#4 ++ x ++ y ++ 0x1#4) = .ok (.orReg x y) ∧
      ∃ t, exec (.orReg x y) s = .next t ∧
        (∀ k, (t.reg x).getLsbD k = ((s.reg x).getLsbD k || (s.reg y).getLsbD k)) ∧
        t.pc = s.pc + 2#16 ∧ KeepsBut [x] [.pc] s t) ∧
    (decodeWord (0x8#4 ++ x ++ y ++ 0x2#4) = .ok (.andReg x y) ∧
      ∃ t, exec (.andReg x y) s = .next t ∧
        (∀ k, (t.reg x).getLsbD k = ((s.reg x).getLsbD k && (s.reg y).getLsbD k)) ∧
        t.pc = s.pc + 2#16 ∧ KeepsBut [x] [.pc] s t) ∧
    (decodeWord (0x8#4 ++ x ++ y ++ 0x3#4) = .ok (.xorReg x y) ∧
      ∃ t, exec (.xorReg x y) s = .next t ∧
        (∀ k, (t.reg x).getLsbD k = ((s.reg x).getLsbD k ^^ (s.reg y).getLsbD k)) ∧
        t.pc = s.pc + 2#16 ∧ KeepsBut [x] [.pc] s t)

/-- 42_register_ops.md R166 and R172: VF is the carry out, also where it is the destination. -/
def Obligations.AddWithCarryOut : Prop :=
  ∀ (x y : Reg) (s : State),
    decodeWord (0x8#4 ++ x ++ y ++ 0x4#4) = .ok (.addReg x y) ∧
    ∃ t, exec (.addReg x y) s = .next t ∧
      t.reg vf = (if (s.reg x).toNat + (s.reg y).toNat > 255 then 1#8 else 0#8) ∧
      (x ≠ vf → (t.reg x).toNat = ((s.reg x).toNat + (s.reg y).toNat) % 256) ∧
      t.pc = s.pc + 2#16 ∧ KeepsBut [x, vf] [.pc] s t

/-- 42_register_ops.md R167, R168: VF is not-borrow, equal operands included, also where it is the destination. -/
def Obligations.SubtractWithNoBorrow : Prop :=
  ∀ (x y : Reg) (s : State),
    (decodeWord (0x8#4 ++ x ++ y ++ 0x5#4) = .ok (.sub x y) ∧
      ∃ t, exec (.sub x y) s = .next t ∧
        t.reg vf = (if (s.reg x).toNat ≥ (s.reg y).toNat then 1#8 else 0#8) ∧
        (x ≠ vf → (t.reg x).toNat = ((s.reg x).toNat + 256 - (s.reg y).toNat) % 256) ∧
        t.pc = s.pc + 2#16 ∧ KeepsBut [x, vf] [.pc] s t) ∧
    (decodeWord (0x8#4 ++ x ++ y ++ 0x7#4) = .ok (.subn x y) ∧
      ∃ t, exec (.subn x y) s = .next t ∧
        t.reg vf = (if (s.reg y).toNat ≥ (s.reg x).toNat then 1#8 else 0#8) ∧
        (x ≠ vf → (t.reg x).toNat = ((s.reg y).toNat + 256 - (s.reg x).toNat) % 256) ∧
        t.pc = s.pc + 2#16 ∧ KeepsBut [x, vf] [.pc] s t)

/-- 42_register_ops.md R169, R170: by one, Vx only, whatever the y field; VF is the bit shifted out. -/
def Obligations.ShiftsByOne : Prop :=
  ∀ (x y : Reg) (s : State),
    (decodeWord (0x8#4 ++ x ++ y ++ 0x6#4) = .ok (.shr x y) ∧
      ∃ t, exec (.shr x y) s = .next t ∧
        t.reg vf = (if (s.reg x).toNat % 2 = 1 then 1#8 else 0#8) ∧
        (x ≠ vf → (t.reg x).toNat = (s.reg x).toNat / 2) ∧
        t.pc = s.pc + 2#16 ∧ KeepsBut [x, vf] [.pc] s t) ∧
    (decodeWord (0x8#4 ++ x ++ y ++ 0xE#4) = .ok (.shl x y) ∧
      ∃ t, exec (.shl x y) s = .next t ∧
        t.reg vf = (if (s.reg x).toNat ≥ 128 then 1#8 else 0#8) ∧
        (x ≠ vf → (t.reg x).toNat = (s.reg x).toNat * 2 % 256) ∧
        t.pc = s.pc + 2#16 ∧ KeepsBut [x, vf] [.pc] s t)

/-- 10_state.md R22: six instructions write VF as a flag, always 0 or 1 (where they raise no fault); every other one
leaves VF alone unless VF is the register it loads. -/
def Obligations.OnlySixInstructionsWriteTheFlag : Prop :=
  ∀ (i : Instr) (s t : State), exec i s = .next t → faultOf i s = none →
    (writesFlag i = true → t.reg vf = 0#8 ∨ t.reg vf = 1#8) ∧
    (writesFlag i = false → vf ∉ destinations i → t.reg vf = s.reg vf)

/-! Memory and addressing -/

/-- 43_memory_addressing.md R180, R181, R182: the three instructions that set I. -/
def Obligations.SettingTheAddressRegister : Prop :=
  ∀ (nnn : BitVec 12) (x : Reg) (s : State),
    (decodeWord (0xA#4 ++ nnn) = .ok (.ldI nnn) ∧
      ∃ t, exec (.ldI nnn) s = .next t ∧ t.i.toNat = nnn.toNat ∧ t.pc = s.pc + 2#16 ∧
        KeepsBut [] [.pc, .i] s t) ∧
    (decodeWord (0xF#4 ++ x ++ 0x1E#8) = .ok (.addI x) ∧
      ∃ t, exec (.addI x) s = .next t ∧ t.i.toNat = (s.i.toNat + (s.reg x).toNat) % 65536 ∧
        t.pc = s.pc + 2#16 ∧ KeepsBut [] [.pc, .i] s t) ∧
    (decodeWord (0xF#4 ++ x ++ 0x29#8) = .ok (.ldF x) ∧
      ∃ t, exec (.ldF x) s = .next t ∧ t.i.toNat = 0x100 + 5 * ((s.reg x).toNat % 16) ∧
        t.pc = s.pc + 2#16 ∧ KeepsBut [] [.pc, .i] s t)

/-- 43_memory_addressing.md R183: three decimal digits at I, I + 1, I + 2, or the fault with no byte written. The
record's fields: log entries 13, 21. -/
def Obligations.BcdStoresThreeDigits : Prop :=
  ∀ (x : Reg) (s : State),
    decodeWord (0xF#4 ++ x ++ 0x33#8) = .ok (.ldB x) ∧
    (s.i.toNat + 2 ≤ 4095 → ∃ t, exec (.ldB x) s = .next t ∧
      (s.mem.wf = true →
        (t.mem.read s.i.toNat).toNat = (s.reg x).toNat / 100 ∧
        (t.mem.read (s.i.toNat + 1)).toNat = (s.reg x).toNat / 10 % 10 ∧
        (t.mem.read (s.i.toNat + 2)).toNat = (s.reg x).toNat % 10) ∧
      KeepsBytesOutside (s.atI 0) 3 s t ∧ t.pc = s.pc + 2#16 ∧ KeepsBut [] [.pc, .mem] s t) ∧
    (s.i.toNat + 2 > 4095 → exec (.ldB x) s = .next { s with
      run := .fault
      fault := { code := .addrBcd, pc := s.pc, word := some (0xF#4 ++ x ++ 0x33#8), addr := some s.i } })

/-- 43_memory_addressing.md R184: V0..Vx to I..I+x, I unchanged, or the fault with nothing written. The record's
fields: log entries 13, 21. -/
def Obligations.BlockStore : Prop :=
  ∀ (x : Reg) (s : State),
    decodeWord (0xF#4 ++ x ++ 0x55#8) = .ok (.storeRegs x) ∧
    (s.i.toNat + x.toNat ≤ 4095 → ∃ t, exec (.storeRegs x) s = .next t ∧
      (s.mem.wf = true → ∀ r : Reg, r.toNat ≤ x.toNat → t.mem.read (s.i.toNat + r.toNat) = s.reg r) ∧
      KeepsBytesOutside (s.atI 0) (x.toNat + 1) s t ∧ t.pc = s.pc + 2#16 ∧ KeepsBut [] [.pc, .mem] s t) ∧
    (s.i.toNat + x.toNat > 4095 → exec (.storeRegs x) s = .next { s with
      run := .fault
      fault := { code := .addrStore, pc := s.pc, word := some (0xF#4 ++ x ++ 0x55#8), addr := some s.i } })

/-- 43_memory_addressing.md R185: I..I+x to V0..Vx, I and memory unchanged, or the fault with no register written. The
record's fields: log entries 13, 21. -/
def Obligations.BlockLoad : Prop :=
  ∀ (x : Reg) (s : State),
    decodeWord (0xF#4 ++ x ++ 0x65#8) = .ok (.loadRegs x) ∧
    (s.i.toNat + x.toNat ≤ 4095 → ∃ t, exec (.loadRegs x) s = .next t ∧
      (∀ r : Reg, t.reg r =
        if r.toNat ≤ x.toNat then s.mem.read (s.i.toNat + r.toNat) else s.reg r) ∧
      t = { s with v := t.v, pc := s.pc + 2#16 }) ∧
    (s.i.toNat + x.toNat > 4095 → exec (.loadRegs x) s = .next { s with
      run := .fault
      fault := { code := .addrLoad, pc := s.pc, word := some (0xF#4 ++ x ++ 0x65#8), addr := some s.i } })

/-- 43_memory_addressing.md R186: a store followed by a load of the same x with the same I brings V0..Vx back, whatever
happened to the registers in between. -/
def Obligations.LoadAfterStoreRestores : Prop :=
  ∀ (x : Reg) (s t u : State), s.mem.wf = true → s.i.toNat + x.toNat ≤ 4095 →
    exec (.storeRegs x) s = .next t → u.mem = t.mem → u.i = t.i →
    ∃ w, exec (.loadRegs x) u = .next w ∧ w.i = s.i ∧
      ∀ r : Reg, r.toNat ≤ x.toNat → w.reg r = s.reg r

/-- 10_state.md R30, R60, in the model's form: two canonical memories that read alike at every address are equal. -/
def Obligations.CanonicalMemoriesReadingAlikeAreEqual : Prop :=
  ∀ m n : Memory, m.wf = true → n.wf = true → (∀ a, a < 4096 → m.read a = n.read a) → m = n

/-- 20_memory.md R68: but for LD B, LD [I], LD Vx,[I] and DRW no instruction reads or writes memory: with any other
memory in its place it does the same, and hands that memory on. -/
def Obligations.OtherInstructionsIgnoreMemory : Prop :=
  ∀ (i : Instr) (s t : State) (m : Memory), reachesMemory i = false → exec i s = .next t →
    exec i { s with mem := m } = .next { t with mem := m }

/-- 20_memory.md R72: what a block store wrote is what a later fetch at those addresses sees, the store's own bytes
included. -/
def Obligations.StoredBytesAreFetched : Prop :=
  ∀ (x r : Reg) (s t : State), s.mem.wf = true → s.i.toNat + x.toNat ≤ 4095 →
    exec (.storeRegs x) s = .next t → r.toNat + 1 ≤ x.toNat →
    fetch { t with pc := s.i + BitVec.ofNat 16 r.toNat } = some (s.reg r ++ s.reg (r + 1#4))

/-! Random, drawing -/

/-- 44_random.md R190, R191: the byte is the free value Config.rnd of the draw count (log entry 2), a fresh one each
time; the statement holds for every such value. -/
def Obligations.RandomByteIsMasked : Prop :=
  ∀ (x : Reg) (nn : Byte) (s : State),
    decodeWord (0xC#4 ++ x ++ nn) = .ok (.rnd x nn) ∧
    ∃ t, exec (.rnd x nn) s = .next t ∧ t.reg x = Config.rnd s.rndDraws &&& nn ∧
      t.rndDraws = s.rndDraws + 1 ∧ t.pc = s.pc + 2#16 ∧ KeepsBut [x] [.pc, .rnd] s t

/-- 45_drawing.md R195. That present events are counted is the model's choice, log entry 14. -/
def Obligations.ClsClearsEveryPixel : Prop :=
  ∀ s : State,
    decodeWord 0x00E0#16 = .ok .cls ∧
    ∃ t, exec .cls s = .next t ∧ (∀ y x, t.fb.pixel y x = false) ∧ t.presents = s.presents + 1 ∧
      t.pc = s.pc + 2#16 ∧ KeepsBut [] [.pc, .fb, .presents] s t

/-- 45_drawing.md R196, R197: exactly the pixels a sprite bit of 1 lands on are flipped, VF tells whether one of them
was set, and where the last sprite byte would lie above 0xFFF (n > 0) the fault, with nothing drawn. The record's
fields: log entries 13, 21; the count of present events: log entry 14. -/
def Obligations.DrawFlipsTheSpritePixels : Prop :=
  ∀ (x y : Reg) (n : BitVec 4) (s : State),
    decodeWord (0xD#4 ++ x ++ y ++ n) = .ok (.drw x y n) ∧
    (n.toNat = 0 ∨ s.i.toNat + n.toNat - 1 ≤ 4095 → ∃ t, exec (.drw x y n) s = .next t ∧
      (∀ py px, t.fb.pixel py px = true ↔ (s.fb.pixel py px = true ↔ ¬SpriteLights s x y n py px)) ∧
      ((∃ py px, SpriteLights s x y n py px ∧ s.fb.pixel py px = true) → t.reg vf = 1#8) ∧
      ((∀ py px, SpriteLights s x y n py px → s.fb.pixel py px = false) → t.reg vf = 0#8) ∧
      t.presents = s.presents + 1 ∧ t.pc = s.pc + 2#16 ∧ KeepsBut [vf] [.pc, .fb, .presents] s t) ∧
    (n.toNat ≠ 0 → s.i.toNat + n.toNat - 1 > 4095 → exec (.drw x y n) s = .next { s with
      run := .fault
      fault := { code := .addrSprite, pc := s.pc, word := some (0xD#4 ++ x ++ y ++ n), addr := some s.i } })

/-- 45_drawing.md R199: drawing twice restores the framebuffer, and the second VF is 1 iff the first draw turned a pixel
on, provided the first draw's flag write left Vx and Vy as they were. -/
def Obligations.DrawingTwiceRestores : Prop :=
  ∀ (x y : Reg) (n : BitVec 4) (s t : State), faultOf (.drw x y n) s = none →
    exec (.drw x y n) s = .next t → t.reg x = s.reg x → t.reg y = s.reg y →
    ∃ u, exec (.drw x y n) t = .next u ∧ u.fb = s.fb ∧
      (u.reg vf = 1#8 ↔ ∃ py px, SpriteLights s x y n py px ∧ s.fb.pixel py px = false)

/-- 10_state.md R29: pixel contents reach a program through the collision flag of DRW alone: with another framebuffer
in its place every other instruction does the same. -/
def Obligations.FramebufferIsReadByDrawAlone : Prop :=
  ∀ (i : Instr) (s t : State) (f : Frame), (∀ x y n, i ≠ .drw x y n) → exec i s = .next t →
    ∃ g, exec i { s with fb := f } = .next { t with fb := g } ∧ (i ≠ .cls → g = f)

/-- 10_state.md R25, 47_timers.md R236: but for CALL and RET no instruction reaches the stack, and none reads ST. -/
def Obligations.StackAndSoundTimerAreNotRead : Prop :=
  ∀ (i : Instr) (s t : State) (k : Vector Word 16) (p : Fin 17) (T : Timer), exec i s = .next t →
    ((∀ nnn, i ≠ .call nnn) → i ≠ .ret →
      exec i { s with stack := k, sp := p } = .next { t with stack := k, sp := p }) ∧
    ((∀ x, i ≠ .ldStVx x) → exec i { s with st := T } = .next { t with st := T })

/-! Input -/

/-- 46_input.md R212, R213: in every run state a key-down sets its bit and satisfies a pending request, and a key-up
clears its bit and never touches the channel. -/
def Obligations.KeyEvents : Prop :=
  ∀ (k : Key) (rest : List Turn) (s : State),
    (s.turns = .host (.keyDown k) :: rest → ∃ t, step s = .next t ∧ t.turns = rest ∧
      (∀ j, t.pressed j = (j == k || s.pressed j)) ∧
      (s.reqPending = true → t.respKey = k ∧ t.respValid = true ∧ t.reqPending = false) ∧
      (s.reqPending = false →
        t.respKey = s.respKey ∧ t.respValid = s.respValid ∧ t.reqPending = false) ∧
      t.waitX = s.waitX ∧ KeepsBut [] [.keys, .channel, .turns] s t) ∧
    (s.turns = .host (.keyUp k) :: rest → ∃ t, step s = .next t ∧ t.turns = rest ∧
      (∀ j, t.pressed j = (j != k && s.pressed j)) ∧ KeepsBut [] [.keys, .turns] s t)

/-- 46_input.md R214, R215: the low nibble of Vx selects the key. -/
def Obligations.SkipsOnKey : Prop :=
  ∀ (x : Reg) (k : Key) (s : State), (s.reg x).toNat % 16 = k.toNat →
    decodeWord (0xE#4 ++ x ++ 0x9E#8) = .ok (.skp x) ∧
    decodeWord (0xE#4 ++ x ++ 0xA1#8) = .ok (.sknp x) ∧
    exec (.skp x) s =
      .next { s with pc := if s.pressed k = true then s.pc + 4#16 else s.pc + 2#16 } ∧
    exec (.sknp x) s =
      .next { s with pc := if s.pressed k = false then s.pc + 4#16 else s.pc + 2#16 }

/-- 46_input.md R216, R217: phase A issues the request and waits; phase B, once a key has been handed off, takes it. -/
def Obligations.BlockingReadInTwoPhases : Prop :=
  (∀ (x : Reg) (s : State),
    decodeWord (0xF#4 ++ x ++ 0x0A#8) = .ok (.ldVxK x) ∧
    exec (.ldVxK x) s = .next { s with
      reqPending := true, respValid := false, waitX := x, run := .waitKey }) ∧
  (∀ s : State, s.run = .waitKey → s.respValid = true → EngineTurn s →
    ∃ t, step s = .next t ∧ (t.reg s.waitX).toNat = s.respKey.toNat ∧ t.respValid = false ∧
      t.run = .run ∧ t.pc = s.pc + 2#16 ∧
      t.reqPending = s.reqPending ∧ t.respKey = s.respKey ∧ t.waitX = s.waitX ∧
      t.turns = s.turns.tail ∧ KeepsBut [s.waitX] [.pc, .channel, .run, .turns] s t)

/-- 46_input.md R218: after phase A, whatever key-ups come first, the first key-down is the one handed off, later key
events do not change it, and the engine's next turn completes the read with that key and a clean channel. -/
def Obligations.FirstKeyDownCompletesTheRead : Prop :=
  ∀ (x : Reg) (k : Key) (before after : List HostEvent) (rest : List Turn) (s : State),
    before.all isKeyUp = true → after.all isKeyEvent = true →
    s.held = false → s.run = .waitKey → s.reqPending = true → s.respValid = false → s.waitX = x →
    s.turns = before.map Turn.host ++ [Turn.host (.keyDown k)] ++ after.map Turn.host ++ [Turn.engine] ++ rest →
    ∃ t, core.run (before.length + 1 + after.length + 1) s = .next t ∧
      (t.reg x).toNat = k.toNat ∧ t.pc = s.pc + 2#16 ∧ t.run = .run ∧
      t.reqPending = false ∧ t.respValid = false ∧ t.turns = rest ∧
      KeepsBut [x] [.pc, .keys, .channel, .run, .turns] s t

/-- 40_fetch_dispatch.md R127: `stop` halts a running or waiting engine and clears the channel, without completing the
read; elsewhere it changes nothing (R124). -/
def Obligations.StopHaltsAndClearsTheChannel : Prop :=
  ∀ (rest : List Turn) (s : State), s.turns = .host .stop :: rest →
    (s.run = .run ∨ s.run = .waitKey →
      step s = .next { s with turns := rest, run := .halt, reqPending := false, respValid := false }) ∧
    (s.run = .halt ∨ s.run = .fault → step s = .next { s with turns := rest })

/-! Timers -/

/-- 47_timers.md R231: the formula, for a time at or after the set; once 0 it stays 0; and it is 0 exactly from
Z(v) microseconds after the set on. -/
def Obligations.TimerValueFormula : Prop :=
  ∀ (T : Timer) (t : Nat), T.tSet ≤ t →
    (timerValue T t).toNat =
      T.val.toNat - (60 * ((t - T.tSet) / 1000000) + (t - T.tSet) % 1000000 / 16667) ∧
    (timerValue T t = 0#8 → ∀ u, t ≤ u → timerValue T u = 0#8) ∧
    (timerValue T t = 0#8 ↔
      T.tSet + (T.val.toNat / 60 * 1000000 + T.val.toNat % 60 * 16667) ≤ t)

/-- 47_timers.md R237 (a), (b), (d): never above what was set, never rising, and Z(v) short of v ticks of 16667
microseconds by 20 for each whole 60, at most 80. -/
def Obligations.TimerNeverRises : Prop :=
  (∀ (T : Timer) (t u : Nat), T.tSet ≤ t → t ≤ u →
    (timerValue T u).toNat ≤ (timerValue T t).toNat ∧ (timerValue T t).toNat ≤ T.val.toNat) ∧
  (∀ v : Byte, v.toNat / 60 * 1000000 + v.toNat % 60 * 16667 + v.toNat / 60 * 20 = v.toNat * 16667 ∧
    v.toNat / 60 * 20 ≤ 80)

/-- 47_timers.md R232, R233, R234, R235, R236: each timer instruction, and each poll of a timer by the host, takes one
clock sample, the latest plus a free number of microseconds (log entry 1), and uses that one sample; the statement
holds for every such number. That a poll is a turn whose answer the state records: log entry 19. -/
def Obligations.TimerInstructions : Prop :=
  ∀ (x : Reg) (s : State),
    (decodeWord (0xF#4 ++ x ++ 0x07#8) = .ok (.ldVxDt x) ∧
      ∃ t, exec (.ldVxDt x) s = .next t ∧ s.clock ≤ t.clock ∧ t.clockDraws = s.clockDraws + 1 ∧
        t.reg x = timerValue s.dt t.clock ∧ t.pc = s.pc + 2#16 ∧ KeepsBut [x] [.pc, .clock] s t) ∧
    (decodeWord (0xF#4 ++ x ++ 0x15#8) = .ok (.ldDtVx x) ∧
      ∃ t, exec (.ldDtVx x) s = .next t ∧ s.clock ≤ t.clock ∧ t.clockDraws = s.clockDraws + 1 ∧
        t.dt = { val := s.reg x, tSet := t.clock } ∧ t.pc = s.pc + 2#16 ∧
        KeepsBut [] [.pc, .clock, .dt] s t) ∧
    (decodeWord (0xF#4 ++ x ++ 0x18#8) = .ok (.ldStVx x) ∧
      ∃ t, exec (.ldStVx x) s = .next t ∧ s.clock ≤ t.clock ∧ t.clockDraws = s.clockDraws + 1 ∧
        t.st = { val := s.reg x, tSet := t.clock } ∧ t.pc = s.pc + 2#16 ∧
        KeepsBut [] [.pc, .clock, .st] s t) ∧
    (∀ rest, s.turns = .host .pollDt :: rest →
      ∃ t, step s = .next t ∧ s.clock ≤ t.clock ∧ t.clockDraws = s.clockDraws + 1 ∧
        t.dtSeen = some (timerValue s.dt t.clock) ∧ t.stSeen = s.stSeen ∧ t.turns = rest ∧
        KeepsBut [] [.clock, .polls, .turns] s t) ∧
    (∀ rest, s.turns = .host .pollSt :: rest →
      ∃ t, step s = .next t ∧ s.clock ≤ t.clock ∧ t.clockDraws = s.clockDraws + 1 ∧
        t.stSeen = some (timerValue s.st t.clock) ∧ t.dtSeen = s.dtSeen ∧ t.turns = rest ∧
        KeepsBut [] [.clock, .polls, .turns] s t)

/-- 47_timers.md R232, R235: of two reads of DT with no set between them the second is not above the first, whatever
steps of other instructions and host polls move the clock on in between. -/
def Obligations.SecondDelayReadIsNotAbove : Prop :=
  ∀ (x y : Reg) (s t u w : State), exec (.ldVxDt x) s = .next t → u.dt = t.dt → t.clock ≤ u.clock →
    exec (.ldVxDt y) u = .next w → (w.reg y).toNat ≤ (t.reg x).toNat

/-! Frames -/

/-- 30_encoding.md R95, 41_control_flow.md, 48_noop_sys.md: SYS and the control-flow instructions, where they raise no
fault, change pc and what their rows list (CALL and RET the stack, JP the run state) and nothing else. -/
def Obligations.ControlFlowFrame : Prop :=
  ∀ (i : Instr) (s : State), familyOf i = .control ∨ familyOf i = .noop → faultOf i s = none →
    ∃ t, exec i s = .next t ∧ KeepsBut (destinations i) (partsWritten i) s t

/-- 30_encoding.md R95, 42_register_ops.md: the eleven register operations change their destination, VF where they
write it as a flag, and pc. -/
def Obligations.RegisterFrame : Prop :=
  ∀ (i : Instr) (s : State), familyOf i = .register →
    ∃ t, exec i s = .next t ∧ t.pc = s.pc + 2#16 ∧ KeepsBut (destinations i) [.pc] s t

/-- 30_encoding.md R95, 20_memory.md R68: the addressing instructions, where they raise no fault, change what their
rows list; the two that store change the bytes from I on that they store and no other. -/
def Obligations.AddressingFrame : Prop :=
  ∀ (i : Instr) (s : State), familyOf i = .addressing → faultOf i s = none →
    ∃ t, exec i s = .next t ∧ t.pc = s.pc + 2#16 ∧ KeepsBut (destinations i) (partsWritten i) s t ∧
      (∀ x, i = .ldB x → KeepsBytesOutside (s.atI 0) 3 s t) ∧
      (∀ x, i = .storeRegs x → KeepsBytesOutside (s.atI 0) (x.toNat + 1) s t)

/-- 30_encoding.md R95, 44_random.md to 47_timers.md: RND, the drawing, input and timer instructions, where they raise
no fault, change what their rows list. -/
def Obligations.DeviceFrame : Prop :=
  ∀ (i : Instr) (s : State),
    familyOf i = .random ∨ familyOf i = .drawing ∨ familyOf i = .input ∨ familyOf i = .timers →
    faultOf i s = none →
    ∃ t, exec i s = .next t ∧ KeepsBut (destinations i) (partsWritten i) s t

/-! Reset, invariants, the end of a run -/

/-- 10_state.md R35, 70_reset_and_hazards.md R283, 20_memory.md R62: the values the spec gives for reset. -/
def Obligations.ResetValues : Prop :=
  (∀ r, State.reset.reg r = 0#8) ∧ State.reset.i = 0#16 ∧ State.reset.pc = 0x200#16 ∧
  State.reset.sp.val = 0 ∧ State.reset.dt.val = 0#8 ∧ State.reset.st.val = 0#8 ∧
  (∀ k, State.reset.pressed k = false) ∧ State.reset.reqPending = false ∧
  State.reset.respValid = false ∧ (∀ y x, State.reset.fb.pixel y x = false) ∧ State.reset.run = .run ∧
  (∀ k, k < 80 → some (State.reset.mem.read (0x100 + k)) = fontBytes[k]?) ∧ fontBytes.length = 80

/-- 70_reset_and_hazards.md R280, R281, 10_state.md R35: the reset event, its image given as bytes or as text, from any
state, one held in reset or faulted included: the engine released and running, every piece at its reset value,
the timers set at a sample not below the latest one, the image at 0x200, the font, and the fill elsewhere. What the clock, the draw counts, the turns and the polls do is the model's choice, log entry 17. -/
def Obligations.ResetEventRestartsTheMachine : Prop :=
  ∀ (e : HostEvent) (image : List Byte) (fill : List Host.Cell) (rest : List Turn) (s : State),
    s.turns = .host e :: rest → Carries e image fill → image.length ≤ 3584 → (fill.map Prod.fst).Nodup →
    ∃ t, step s = .next t ∧
      (∀ r, t.reg r = 0#8) ∧ t.i = 0#16 ∧ t.pc = 0x200#16 ∧ t.sp.val = 0 ∧
      t.dt.val = 0#8 ∧ t.st.val = 0#8 ∧ t.dt.tSet = t.clock ∧ t.st.tSet = t.clock ∧ s.clock ≤ t.clock ∧
      (∀ k, t.pressed k = false) ∧ t.reqPending = false ∧ t.respValid = false ∧
      (∀ y x, t.fb.pixel y x = false) ∧ t.run = .run ∧ t.held = false ∧ t.turns = rest ∧
      (∀ k, k < image.length → some (t.mem.read (0x200 + k)) = image[k]?) ∧
      (∀ k, k < 80 → some (t.mem.read (0x100 + k)) = fontBytes[k]?) ∧
      (∀ a, a < 4096 → ¬(0x100 ≤ a ∧ a < 0x150) → ¬(0x200 ≤ a ∧ a < 0x200 + image.length) →
        (∀ b, (a, b) ∈ fill → t.mem.read a = b) ∧
        (a ∉ fill.map Prod.fst → t.mem.read a = 0#8))

/-- 10_state.md R28, 47_timers.md R235, 60_exceptions.md R254: the invariant holds after reset. -/
def Obligations.ResetMeetsTheInvariant : Prop := State.reset.Inv

/-- 10_state.md R28, R35, 47_timers.md R235, 60_exceptions.md R254: every step, of whichever agent, keeps the canonical
memory, the channel invariant (with `waitX` the x field of the waiting word), the timers' order and the
fault record's truth; and the latest clock sample never falls, whichever context takes the next one. -/
def Obligations.EveryStepKeepsTheInvariant : Prop :=
  ∀ s t : State, s.Inv → step s = .next t → t.Inv ∧ s.clock ≤ t.clock

/-- 70_reset_and_hazards.md R288, 40_fetch_dispatch.md R126: once the engine stands at a jump to its own address, then
after any number of steps, the detector present or not, whatever key events, stops and polls arrive, no register,
memory byte, stack entry or pixel has changed. -/
def Obligations.JumpToSelfChangesNothingEver : Prop :=
  ∀ (s : State) (w : Word) (nnn : BitVec 12) (steps : Nat),
    s.run = .run → ChannelInv s → fetch s = some w → decodeWord w = .ok (.jp nnn) →
    nnn.toNat = s.pc.toNat → noReset s.turns = true →
    ∃ t, core.run steps s = .next t ∧ (t.run = .run ∨ t.run = .halt) ∧
      KeepsBut [] [.keys, .run, .clock, .polls, .turns] s t

/-- 40_fetch_dispatch.md R124: once a run has ended, whatever comes but a reset, nothing moves but the key vector, and the
clock with the host's polls. -/
def Obligations.EndedRunStaysEnded : Prop :=
  ∀ (s : State) (steps : Nat), runEnded s = true → ChannelInv s → noReset s.turns = true →
    ∃ t, core.run steps s = .next t ∧ KeepsBut [] [.keys, .clock, .polls, .turns] s t
end

