-- ==== Sys2Proof/Laws/Decode.lean ====
section
/-! SUPPORT. The fields of an encoded word are the fields it was made of (30_encoding.md R91, R92). -/

namespace Sys2Proof

variable (op n : BitVec 4) (x y : Reg) (nn : Byte) (nnn : BitVec 12)

@[simp] theorem opOf_formNNN : opOf (formNNN op nnn) = op := by
  apply BitVec.eq_of_getLsbD_eq
  intro k hk
  simp only [opOf, formNNN, BitVec.getLsbD_extractLsb', BitVec.getLsbD_append]
  simp [hk]

@[simp] theorem nnnOf_formNNN : nnnOf (formNNN op nnn) = nnn := by
  apply BitVec.eq_of_getLsbD_eq
  intro k hk
  simp only [nnnOf, formNNN, BitVec.getLsbD_extractLsb', BitVec.getLsbD_append]
  simp [hk]

@[simp] theorem opOf_formXNN : opOf (formXNN op x nn) = op := by
  apply BitVec.eq_of_getLsbD_eq
  intro k hk
  simp only [opOf, formXNN, BitVec.getLsbD_extractLsb', BitVec.getLsbD_append]
  simp [hk, show ¬(12 + k < 8) by omega, show ¬(12 + k - 8 < 4) by omega, show 12 + k - 8 - 4 = k by omega]

@[simp] theorem xOf_formXNN : xOf (formXNN op x nn) = x := by
  apply BitVec.eq_of_getLsbD_eq
  intro k hk
  simp only [xOf, formXNN, BitVec.getLsbD_extractLsb', BitVec.getLsbD_append]
  simp [hk]

@[simp] theorem nnOf_formXNN : nnOf (formXNN op x nn) = nn := by
  apply BitVec.eq_of_getLsbD_eq
  intro k hk
  simp only [nnOf, formXNN, BitVec.getLsbD_extractLsb', BitVec.getLsbD_append]
  simp [hk]

@[simp] theorem opOf_formXYN : opOf (formXYN op x y n) = op := by
  apply BitVec.eq_of_getLsbD_eq
  intro k hk
  simp only [opOf, formXYN, BitVec.getLsbD_extractLsb', BitVec.getLsbD_append]
  simp [hk, show ¬(12 + k < 4) by omega, show ¬(12 + k - 4 < 4) by omega,
    show ¬(12 + k - 4 - 4 < 4) by omega, show 12 + k - 4 - 4 - 4 = k by omega]

@[simp] theorem xOf_formXYN : xOf (formXYN op x y n) = x := by
  apply BitVec.eq_of_getLsbD_eq
  intro k hk
  simp only [xOf, formXYN, BitVec.getLsbD_extractLsb', BitVec.getLsbD_append]
  simp [hk, show ¬(8 + k < 4) by omega, show ¬(8 + k - 4 < 4) by omega, show 8 + k - 4 - 4 = k by omega]

@[simp] theorem yOf_formXYN : yOf (formXYN op x y n) = y := by
  apply BitVec.eq_of_getLsbD_eq
  intro k hk
  simp only [yOf, formXYN, BitVec.getLsbD_extractLsb', BitVec.getLsbD_append]
  simp [hk]

@[simp] theorem nOf_formXYN : nOf (formXYN op x y n) = n := by
  apply BitVec.eq_of_getLsbD_eq
  intro k hk
  simp only [nOf, formXYN, BitVec.getLsbD_extractLsb', BitVec.getLsbD_append]
  simp [hk]

/-- A word whose high nibble is not 0 is neither CLS nor RET. -/
theorem ne_cls_of_opOf {w : Word} (h : opOf w ≠ 0x0#4) : w ≠ 0x00E0#16 ∧ w ≠ 0x00EE#16 :=
  ⟨fun e => h (by rw [e]; decide), fun e => h (by rw [e]; decide)⟩

/-! A word made with a high nibble other than 0 is neither CLS nor RET. -/

theorem formNNN_ne_cls (h : op ≠ 0x0#4) : formNNN op nnn ≠ 0x00E0#16 :=
  (ne_cls_of_opOf (by rwa [opOf_formNNN])).1

theorem formNNN_ne_ret (h : op ≠ 0x0#4) : formNNN op nnn ≠ 0x00EE#16 :=
  (ne_cls_of_opOf (by rwa [opOf_formNNN])).2

theorem formXNN_ne_cls (h : op ≠ 0x0#4) : formXNN op x nn ≠ 0x00E0#16 :=
  (ne_cls_of_opOf (by rwa [opOf_formXNN])).1

theorem formXNN_ne_ret (h : op ≠ 0x0#4) : formXNN op x nn ≠ 0x00EE#16 :=
  (ne_cls_of_opOf (by rwa [opOf_formXNN])).2

theorem formXYN_ne_cls (h : op ≠ 0x0#4) : formXYN op x y n ≠ 0x00E0#16 :=
  (ne_cls_of_opOf (by rwa [opOf_formXYN])).1

theorem formXYN_ne_ret (h : op ≠ 0x0#4) : formXYN op x y n ≠ 0x00EE#16 :=
  (ne_cls_of_opOf (by rwa [opOf_formXYN])).2

/-! A word put together again from its own fields is that word. -/

theorem formNNN_fields (w : Word) : formNNN (opOf w) (nnnOf w) = w := by
  apply BitVec.eq_of_getLsbD_eq
  intro k hk
  simp only [opOf, nnnOf, formNNN, BitVec.getLsbD_extractLsb', BitVec.getLsbD_append]
  by_cases h : k < 12
  · simp [h]
  · simp [h, show k - 12 < 4 by omega, show 12 + (k - 12) = k by omega]

theorem formXNN_fields (w : Word) : formXNN (opOf w) (xOf w) (nnOf w) = w := by
  apply BitVec.eq_of_getLsbD_eq
  intro k hk
  simp only [opOf, xOf, nnOf, formXNN, BitVec.getLsbD_extractLsb', BitVec.getLsbD_append]
  by_cases h : k < 8
  · simp [h]
  · by_cases h' : k < 12
    · simp [h, show k - 8 < 4 by omega, show 8 + (k - 8) = k by omega]
    · simp [h, show ¬k - 8 < 4 by omega, show k - 8 - 4 < 4 by omega, show 12 + (k - 8 - 4) = k by omega]

theorem formXYN_fields (w : Word) : formXYN (opOf w) (xOf w) (yOf w) (nOf w) = w := by
  apply BitVec.eq_of_getLsbD_eq
  intro k hk
  simp only [opOf, xOf, yOf, nOf, formXYN, BitVec.getLsbD_extractLsb', BitVec.getLsbD_append]
  by_cases h : k < 4
  · simp [h]
  · by_cases h' : k < 8
    · simp [h, show k - 4 < 4 by omega, show 4 + (k - 4) = k by omega]
    · by_cases h'' : k < 12
      · simp [h, show ¬k - 4 < 4 by omega, show k - 4 - 4 < 4 by omega, show 8 + (k - 4 - 4) = k by omega]
      · simp [h, show ¬k - 4 < 4 by omega, show ¬k - 4 - 4 < 4 by omega,
          show k - 4 - 4 - 4 < 4 by omega, show 12 + (k - 4 - 4 - 4) = k by omega]

/-! The fields as numbers (30_encoding.md R91). -/

theorem toNat_opOf (w : Word) : (opOf w).toNat = w.toNat / 4096 := by
  have := w.isLt
  simp [opOf, BitVec.extractLsb'_toNat, Nat.shiftRight_eq_div_pow]
  omega

theorem toNat_nOf (w : Word) : (nOf w).toNat = w.toNat % 16 := by
  simp [nOf, BitVec.extractLsb'_toNat]

theorem toNat_nnOf (w : Word) : (nnOf w).toNat = w.toNat % 256 := by
  simp [nnOf, BitVec.extractLsb'_toNat]

/-- A word is its two bytes, high byte first (20_memory.md R64). -/
@[simp] theorem wordOf_bytes (w : Word) : wordOf (hiByte w) (loByte w) = w := by
  apply BitVec.eq_of_getLsbD_eq
  intro k hk
  simp only [wordOf, hiByte, loByte, BitVec.getLsbD_append, BitVec.getLsbD_extractLsb']
  by_cases h : k < 8
  · simp [h]
  · simp [h, show k - 8 < 8 by omega, show 8 + (k - 8) = k by omega]

end Sys2Proof
end

