-- ==== Sys2Proof/Laws/Memory.lean ====
section
/-! SUPPORT. What the memory operations do: a read after a write, every other address unchanged, and the
canonical form kept. -/

namespace Sys2Proof.Machine

theorem Memory.read_insert (m : Memory) (a c : Nat) (b : Byte) :
    (Memory.insert a b m).read c = if a = c then b else m.read c := by
  induction m with
  | nil => simp [Memory.insert, Memory.read]
  | cons cell rest ih =>
    obtain ⟨k, d⟩ := cell
    simp only [Memory.insert]
    split
    · simp [Memory.read]
    · split
      · subst_vars
        simp only [Memory.read]
        split <;> rfl
      · simp only [Memory.read, ih]
        split <;> split <;> first | rfl | omega

theorem Memory.read_of_wfFrom_lt {m : Memory} {lo a : Nat} (h : Memory.wfFrom lo m = true) (ha : a < lo) :
    m.read a = unlisted a := by
  induction m generalizing lo with
  | nil => rfl
  | cons cell rest ih =>
    obtain ⟨k, d⟩ := cell
    simp only [Memory.wfFrom, Bool.and_eq_true, decide_eq_true_eq] at h
    rw [Memory.read, if_neg (by omega)]
    exact ih h.2 (by omega)

theorem Memory.read_erase {m : Memory} {lo : Nat} (h : Memory.wfFrom lo m = true) (a c : Nat) :
    (m.erase a).read c = if a = c then unlisted a else m.read c := by
  induction m generalizing lo with
  | nil =>
    simp only [Memory.erase, Memory.read]
    split <;> simp_all
  | cons cell rest ih =>
    obtain ⟨k, d⟩ := cell
    simp only [Memory.wfFrom, Bool.and_eq_true, decide_eq_true_eq] at h
    simp only [Memory.erase]
    split
    · next hak =>
      subst hak
      by_cases hac : a = c
      · subst hac
        rw [if_pos rfl]
        exact Memory.read_of_wfFrom_lt h.2 (by omega)
      · simp only [Memory.read, if_neg hac]
    · simp only [Memory.read, ih h.2]
      split <;> split <;> first | rfl | omega

/-- A read after a write: the byte written at that address, the old one at every other. -/
theorem Memory.read_write {m : Memory} (h : m.wf = true) {a : Nat} (ha : a < Config.memSize) (b : Byte)
    (c : Nat) : (m.write a b).read c = if a = c then b else m.read c := by
  simp only [Memory.write, if_neg (Nat.not_le.mpr ha)]
  split
  · next hb => rw [Memory.read_erase h, hb]
  · exact Memory.read_insert m a c b

theorem Memory.wfFrom_mono {m : Memory} {lo lo' : Nat} (h : Memory.wfFrom lo m = true) (hl : lo' ≤ lo) :
    Memory.wfFrom lo' m = true := by
  cases m with
  | nil => rfl
  | cons cell rest =>
    obtain ⟨k, d⟩ := cell
    simp only [Memory.wfFrom, Bool.and_eq_true, decide_eq_true_eq] at h ⊢
    exact ⟨⟨⟨by omega, h.1.1.2⟩, h.1.2⟩, h.2⟩

theorem Memory.wfFrom_insert {m : Memory} {lo a : Nat} {b : Byte} (h : Memory.wfFrom lo m = true)
    (hlo : lo ≤ a) (ha : a < Config.memSize) (hb : b ≠ unlisted a) :
    Memory.wfFrom lo (Memory.insert a b m) = true := by
  induction m generalizing lo with
  | nil => simp [Memory.insert, Memory.wfFrom, hlo, ha, hb]
  | cons cell rest ih =>
    obtain ⟨k, d⟩ := cell
    simp only [Memory.wfFrom, Bool.and_eq_true, decide_eq_true_eq] at h
    simp only [Memory.insert]
    split
    · next hak =>
      simp only [Memory.wfFrom, Bool.and_eq_true, decide_eq_true_eq, bne_iff_ne]
      exact ⟨⟨⟨hlo, ha⟩, hb⟩, ⟨⟨by omega, h.1.1.2⟩, by simpa using h.1.2⟩, h.2⟩
    · split
      · next hak =>
        subst hak
        simp only [Memory.wfFrom, Bool.and_eq_true, decide_eq_true_eq, bne_iff_ne]
        exact ⟨⟨⟨hlo, ha⟩, hb⟩, h.2⟩
      · simp only [Memory.wfFrom, Bool.and_eq_true, decide_eq_true_eq]
        exact ⟨h.1, ih h.2 (by omega)⟩

theorem Memory.wfFrom_erase {m : Memory} {lo : Nat} (h : Memory.wfFrom lo m = true) (a : Nat) :
    Memory.wfFrom lo (m.erase a) = true := by
  induction m generalizing lo with
  | nil => rfl
  | cons cell rest ih =>
    obtain ⟨k, d⟩ := cell
    simp only [Memory.wfFrom, Bool.and_eq_true, decide_eq_true_eq] at h
    simp only [Memory.erase]
    split
    · exact Memory.wfFrom_mono h.2 (by omega)
    · simp only [Memory.wfFrom, Bool.and_eq_true, decide_eq_true_eq]
      exact ⟨h.1, ih h.2⟩

/-- A write keeps the canonical form. -/
theorem Memory.wf_write {m : Memory} (h : m.wf = true) (a : Nat) (b : Byte) : (m.write a b).wf = true := by
  unfold Memory.write
  split
  · exact h
  · split
    · exact Memory.wfFrom_erase h a
    · next hm hb => exact Memory.wfFrom_insert h (Nat.zero_le a) (Nat.not_le.mp hm) hb

/-- A run of writes keeps the canonical form. -/
theorem Memory.wf_writeBytes {m : Memory} (h : m.wf = true) (a : Nat) (bs : List Byte) :
    (m.writeBytes a bs).wf = true := by
  induction bs generalizing m a with
  | nil => exact h
  | cons b rest ih => exact ih (Memory.wf_write h a b) (a + 1)

theorem Memory.wf_fillWith {m : Memory} (h : m.wf = true) (cells : List Host.Cell) :
    (m.fillWith cells).wf = true := by
  induction cells generalizing m with
  | nil => exact h
  | cons cell rest ih =>
    obtain ⟨a, b⟩ := cell
    simp only [Memory.fillWith]
    split
    · exact ih h
    · exact ih (Memory.wf_write h a b)

/-- What a run of writes inside memory leaves: its bytes in its range, every other byte as it was. -/
theorem Memory.read_writeBytes {m : Memory} (h : m.wf = true) {a : Nat} {bs : List Byte}
    (ha : a + bs.length ≤ Config.memSize) (c : Nat) :
    (m.writeBytes a bs).read c = if a ≤ c ∧ c < a + bs.length then bs.getD (c - a) 0#8 else m.read c := by
  induction bs generalizing m a with
  | nil =>
    rw [if_neg (by simp)]
    rfl
  | cons b rest ih =>
    simp only [List.length_cons] at ha ⊢
    rw [Memory.writeBytes, ih (Memory.wf_write h a b) (by omega), Memory.read_write h (by omega)]
    by_cases hac : a = c
    · subst hac
      rw [if_neg (by omega), if_pos rfl, if_pos (by omega), Nat.sub_self, List.getD_cons_zero]
    · rw [if_neg hac]
      by_cases hr : a + 1 ≤ c ∧ c < a + 1 + rest.length
      · rw [if_pos hr, if_pos (by omega), show c - a = (c - (a + 1)) + 1 by omega, List.getD_cons_succ]
      · rw [if_neg hr, if_neg (by omega)]

theorem Memory.read_erase_ne (m : Memory) {a c : Nat} (h : a ≠ c) : (m.erase a).read c = m.read c := by
  induction m with
  | nil => rfl
  | cons cell rest ih =>
    obtain ⟨k, d⟩ := cell
    simp only [Memory.erase]
    split
    · next hak => rw [Memory.read, if_neg (by omega)]
    · simp only [Memory.read, ih]

/-- A write leaves every other address alone, whatever the memory. -/
theorem Memory.read_write_ne (m : Memory) {a c : Nat} (h : a ≠ c) (b : Byte) :
    (m.write a b).read c = m.read c := by
  unfold Memory.write
  split
  · rfl
  · split
    · exact Memory.read_erase_ne m h
    · rw [Memory.read_insert, if_neg h]

/-- A run of writes leaves every address outside its range alone, whatever the memory. -/
theorem Memory.read_writeBytes_outside (m : Memory) (a : Nat) (bs : List Byte) {c : Nat}
    (h : c < a ∨ a + bs.length ≤ c) : (m.writeBytes a bs).read c = m.read c := by
  induction bs generalizing m a with
  | nil => rfl
  | cons b rest ih =>
    simp only [List.length_cons] at h
    rw [Memory.writeBytes, ih _ _ (by omega), Memory.read_write_ne _ (by omega)]

@[simp] theorem Memory.length_readBytes (m : Memory) (a n : Nat) : (m.readBytes a n).length = n := by
  induction n generalizing a with
  | zero => rfl
  | succ n ih => simp only [Memory.readBytes, List.length_cons, ih]

/-- The `k`-th byte of a run of reads. -/
theorem Memory.getElem_readBytes (m : Memory) (a n k : Nat) (h : k < (m.readBytes a n).length) :
    (m.readBytes a n)[k] = m.read (a + k) := by
  induction n generalizing a k with
  | zero => simp at h
  | succ n ih =>
    cases k with
    | zero => rfl
    | succ k =>
      simp only [Memory.readBytes, List.getElem_cons_succ]
      rw [ih]
      congr 1
      omega

end Sys2Proof.Machine
end

