-- ==== Sys2Proof/Laws/Drawing.lean ====
section
/-! SUPPORT. What a blit does: the loops of DRW are one toggle at each point of a list without repeats
(45_drawing.md R197 d), so a pixel changes iff a sprite bit lands on it. -/

namespace Sys2Proof.Machine

/-- A toggle flips its pixel and no other. -/
@[simp] theorem Frame.pixel_toggle (fb : Frame) (y y' : Fin 32) (x x' : Fin 64) :
    (fb.toggle y x).pixel y' x' = if y = y' ∧ x = x' then !fb.pixel y x else fb.pixel y' x' := by
  simp only [Frame.pixel, Frame.toggle, Vector.getElem_set]
  by_cases hy : y = y'
  · subst hy
    by_cases hx : x = x'
    · subst hx
      simp
    · simp [hx, Fin.val_inj]
  · simp [hy, Fin.val_inj]

@[simp] theorem Frame.pixel_blank (y : Fin 32) (x : Fin 64) : Frame.blank.pixel y x = false := by
  simp [Frame.pixel, Frame.blank]

/-- Two framebuffers with the same pixels are the same. -/
theorem Frame.ext_pixel {f g : Frame} (h : ∀ y x, f.pixel y x = g.pixel y x) : f = g := by
  apply Vector.ext
  intro y hy
  apply Vector.ext
  intro x hx
  exact h ⟨y, hy⟩ ⟨x, hx⟩

/-- A blit at a list of points. -/
def blitPoints (b : Blit) (pts : List (Fin 32 × Fin 64)) : Blit :=
  pts.foldl (fun b p => blitPixel b p.1 p.2) b

/-- At points without repeats: each is toggled once, and the collision flag tells whether one was set. -/
theorem blitPoints_spec (pts : List (Fin 32 × Fin 64)) (hn : pts.Nodup) (b : Blit) :
    (∀ y x, (blitPoints b pts).fb.pixel y x = (b.fb.pixel y x ^^ decide ((y, x) ∈ pts))) ∧
    (blitPoints b pts).collision = (b.collision || pts.any fun p => b.fb.pixel p.1 p.2) := by
  induction pts generalizing b with
  | nil => simp [blitPoints]
  | cons p rest ih =>
    obtain ⟨hp, hr⟩ := List.nodup_cons.mp hn
    obtain ⟨ihf, ihc⟩ := ih hr (blitPixel b p.1 p.2)
    have hstep : blitPoints b (p :: rest) = blitPoints (blitPixel b p.1 p.2) rest := rfl
    constructor
    · intro y x
      rw [hstep, ihf y x]
      by_cases hyx : (y, x) = p
      · subst hyx
        simp [blitPixel, hp]
      · have : ¬(p.1 = y ∧ p.2 = x) := fun h => hyx (by rw [← h.1, ← h.2])
        simp [blitPixel, this, hyx]
    · have hrest : (rest.any fun q => (blitPixel b p.1 p.2).fb.pixel q.1 q.2) =
          rest.any fun q => b.fb.pixel q.1 q.2 := by
        rw [Bool.eq_iff_iff, List.any_eq_true, List.any_eq_true]
        refine exists_congr fun q => and_congr_right fun hq => ?_
        have : ¬(p.1 = q.1 ∧ p.2 = q.2) := fun h => hp (by rwa [Prod.ext h.1 h.2])
        simp [blitPixel, this]
      rw [hstep, ihc, List.any_cons, hrest]
      simp only [blitPixel, Bool.or_assoc]

/-- The points one row of a sprite lights, columns `cs`. -/
def rowPoints (x0 : Nat) (py : Fin 32) (byte : Byte) (cs : List Nat) : List (Fin 32 × Fin 64) :=
  (cs.filter fun c => byte.getLsbD (7 - c)).map fun c => (py, wrapX (x0 + c))

/-- The points the rows of a sprite light, from row `r` on. -/
def spritePoints (x0 y0 : Nat) (r : Nat) : List Byte → List (Fin 32 × Fin 64)
  | [] => []
  | byte :: rest =>
    rowPoints x0 (wrapY (y0 + r)) byte [0, 1, 2, 3, 4, 5, 6, 7] ++ spritePoints x0 y0 (r + 1) rest

theorem blitCols_eq_points (x0 : Nat) (py : Fin 32) (byte : Byte) (b : Blit) (cs : List Nat) :
    blitCols x0 py byte b cs = blitPoints b (rowPoints x0 py byte cs) := by
  induction cs generalizing b with
  | nil => rfl
  | cons c rest ih =>
    rw [blitCols, ih]
    by_cases h : byte.getLsbD (7 - c) = true
    · simp [rowPoints, blitPoints, h]
    · simp [rowPoints, blitPoints, h]

theorem blitRows_eq_points (x0 y0 r : Nat) (b : Blit) (bytes : List Byte) :
    blitRows x0 y0 r b bytes = blitPoints b (spritePoints x0 y0 r bytes) := by
  induction bytes generalizing r b with
  | nil => rfl
  | cons byte rest ih =>
    rw [blitRows, ih, blitCols_eq_points, spritePoints, blitPoints, blitPoints, blitPoints, List.foldl_append]

/-- A point is lit by a row iff one of its columns lands there with a bit of 1. -/
theorem mem_rowPoints {x0 : Nat} {py : Fin 32} {byte : Byte} {y : Fin 32} {x : Fin 64} :
    (y, x) ∈ rowPoints x0 py byte [0, 1, 2, 3, 4, 5, 6, 7] ↔
      y = py ∧ ∃ c, c < 8 ∧ byte.getLsbD (7 - c) = true ∧ x = wrapX (x0 + c) := by
  simp only [rowPoints, List.mem_map, List.mem_filter, Prod.mk.injEq]
  constructor
  · rintro ⟨c, ⟨hc, hb⟩, hy, hx⟩
    refine ⟨hy.symm, c, ?_, hb, hx.symm⟩
    simp at hc
    omega
  · rintro ⟨hy, c, hc, hb, hx⟩
    refine ⟨c, ⟨?_, hb⟩, hy.symm, hx.symm⟩
    simp
    omega

/-- A point is lit by a sprite iff one of its rows lights it. -/
theorem mem_spritePoints {x0 y0 r : Nat} {bytes : List Byte} {y : Fin 32} {x : Fin 64} :
    (y, x) ∈ spritePoints x0 y0 r bytes ↔
      ∃ k, ∃ h : k < bytes.length, y = wrapY (y0 + (r + k)) ∧
        ∃ c, c < 8 ∧ bytes[k].getLsbD (7 - c) = true ∧ x = wrapX (x0 + c) := by
  induction bytes generalizing r with
  | nil => simp [spritePoints]
  | cons byte rest ih =>
    rw [spritePoints, List.mem_append, mem_rowPoints, ih]
    constructor
    · rintro (⟨hy, hc⟩ | ⟨k, hk, hy, hc⟩)
      · exact ⟨0, by simp, by simpa using hy, hc⟩
      · exact ⟨k + 1, by simpa using hk, by rw [hy]; congr 1; omega, by simpa using hc⟩
    · rintro ⟨k, hk, hy, hc⟩
      cases k with
      | zero => exact .inl ⟨by simpa using hy, hc⟩
      | succ k => exact .inr ⟨k, by simpa using hk, by rw [hy]; congr 1; omega, by simpa using hc⟩

theorem wrapX_inj {x0 c d : Nat} (hc : c < 8) (hd : d < 8) (h : wrapX (x0 + c) = wrapX (x0 + d)) : c = d := by
  have := Fin.val_eq_of_eq h
  simp only [wrapX] at this
  omega

theorem wrapY_inj {y0 r s : Nat} (hr : r < 32) (hs : s < 32) (h : wrapY (y0 + r) = wrapY (y0 + s)) :
    r = s := by
  have := Fin.val_eq_of_eq h
  simp only [wrapY] at this
  omega

/-- No two pixels of a sprite land on the same point (R197 d). -/
theorem nodup_spritePoints (x0 y0 r : Nat) (bytes : List Byte) (h : r + bytes.length ≤ 32) :
    (spritePoints x0 y0 r bytes).Nodup := by
  induction bytes generalizing r with
  | nil => simp [spritePoints]
  | cons byte rest ih =>
    simp only [List.length_cons] at h
    rw [spritePoints, List.nodup_append]
    refine ⟨?_, ih (r + 1) (by omega), ?_⟩
    · refine List.Nodup.map_on ?_ (List.Nodup.filter _ (by decide))
      intro c hc d hd he
      have hc8 : c < 8 := by
        have := (List.mem_filter.mp hc).1
        simp at this
        omega
      have hd8 : d < 8 := by
        have := (List.mem_filter.mp hd).1
        simp at this
        omega
      exact wrapX_inj hc8 hd8 (Prod.mk.inj he).2
    · rintro ⟨y, x⟩ hp q hq rfl
      obtain ⟨hy, -⟩ := mem_rowPoints.mp hp
      obtain ⟨k, hk, hy', -⟩ := mem_spritePoints.mp hq
      have := wrapY_inj (by omega) (by omega) (hy.symm.trans hy')
      omega

theorem mem_points_iff_lights (s : State) (vx vy : Reg) (n : BitVec 4) (y : Fin 32) (x : Fin 64) :
    (y, x) ∈ spritePoints (s.reg vx).toNat (s.reg vy).toNat 0 (s.mem.readBytes (s.atI 0) n.toNat) ↔
      SpriteLights s vx vy n y x := by
  rw [mem_spritePoints]
  constructor
  · rintro ⟨k, hk, hy, c, hc, hb, hx⟩
    rw [Memory.getElem_readBytes] at hb
    refine ⟨k, by simpa using hk, by simp [hy, wrapY], c, hc, ?_, by simp [hx, wrapX]⟩
    simpa [State.atI] using hb
  · rintro ⟨k, hk, hy, c, hc, hb, hx⟩
    refine ⟨k, by simpa using hk, Fin.ext (by simp [hy, wrapY]), c, hc, ?_, Fin.ext (by simp [hx, wrapX])⟩
    rw [Memory.getElem_readBytes]
    simpa [State.atI] using hb

/-- The blit of DRW: a pixel is flipped iff the sprite lights it. -/
theorem pixel_spriteBlit (s : State) (vx vy : Reg) (n : BitVec 4) (y : Fin 32) (x : Fin 64) :
    (spriteBlit vx vy n s).fb.pixel y x = true ↔
      ((s.fb.pixel y x = true) ↔ ¬SpriteLights s vx vy n y x) := by
  have hn := nodup_spritePoints (s.reg vx).toNat (s.reg vy).toNat 0 (s.mem.readBytes (s.atI 0) n.toNat)
    (by have := n.isLt; simp; omega)
  rw [spriteBlit, blitRows_eq_points, (blitPoints_spec _ hn _).1 y x]
  by_cases hl : SpriteLights s vx vy n y x
  · rw [decide_eq_true ((mem_points_iff_lights s vx vy n y x).mpr hl)]
    cases s.fb.pixel y x <;> simp [hl]
  · rw [decide_eq_false (fun h => hl ((mem_points_iff_lights s vx vy n y x).mp h))]
    cases s.fb.pixel y x <;> simp [hl]

/-- The collision of DRW: some pixel the sprite lights was set. -/
theorem collision_spriteBlit (s : State) (vx vy : Reg) (n : BitVec 4) :
    (spriteBlit vx vy n s).collision = true ↔
      ∃ y x, SpriteLights s vx vy n y x ∧ s.fb.pixel y x = true := by
  have hn := nodup_spritePoints (s.reg vx).toNat (s.reg vy).toNat 0 (s.mem.readBytes (s.atI 0) n.toNat)
    (by have := n.isLt; simp; omega)
  rw [spriteBlit, blitRows_eq_points, (blitPoints_spec _ hn _).2]
  simp only [Bool.false_or, List.any_eq_true, Prod.exists]
  exact exists_congr fun y => exists_congr fun x => and_congr_left' (mem_points_iff_lights s vx vy n y x)

end Sys2Proof.Machine
end

