-- ==== Sys2Proof/Laws/State.lean ====
section
/-! SUPPORT. One lemma per field per update of State, so that no proof unfolds a record update. -/

namespace Sys2Proof.Machine

variable (s : State)

/-! `setReg` -/
@[simp] theorem State.setReg_mem (x : Reg) (b : Byte) : (s.setReg x b).mem = s.mem := rfl
@[simp] theorem State.setReg_v (x : Reg) (b : Byte) : (s.setReg x b).v = s.v.set x.toNat b x.isLt := rfl
@[simp] theorem State.setReg_i (x : Reg) (b : Byte) : (s.setReg x b).i = s.i := rfl
@[simp] theorem State.setReg_pc (x : Reg) (b : Byte) : (s.setReg x b).pc = s.pc := rfl
@[simp] theorem State.setReg_stack (x : Reg) (b : Byte) : (s.setReg x b).stack = s.stack := rfl
@[simp] theorem State.setReg_sp (x : Reg) (b : Byte) : (s.setReg x b).sp = s.sp := rfl
@[simp] theorem State.setReg_dt (x : Reg) (b : Byte) : (s.setReg x b).dt = s.dt := rfl
@[simp] theorem State.setReg_st (x : Reg) (b : Byte) : (s.setReg x b).st = s.st := rfl
@[simp] theorem State.setReg_keys (x : Reg) (b : Byte) : (s.setReg x b).keys = s.keys := rfl
@[simp] theorem State.setReg_reqPending (x : Reg) (b : Byte) : (s.setReg x b).reqPending = s.reqPending := rfl
@[simp] theorem State.setReg_respValid (x : Reg) (b : Byte) : (s.setReg x b).respValid = s.respValid := rfl
@[simp] theorem State.setReg_respKey (x : Reg) (b : Byte) : (s.setReg x b).respKey = s.respKey := rfl
@[simp] theorem State.setReg_waitX (x : Reg) (b : Byte) : (s.setReg x b).waitX = s.waitX := rfl
@[simp] theorem State.setReg_fb (x : Reg) (b : Byte) : (s.setReg x b).fb = s.fb := rfl
@[simp] theorem State.setReg_run (x : Reg) (b : Byte) : (s.setReg x b).run = s.run := rfl
@[simp] theorem State.setReg_fault (x : Reg) (b : Byte) : (s.setReg x b).fault = s.fault := rfl
@[simp] theorem State.setReg_clock (x : Reg) (b : Byte) : (s.setReg x b).clock = s.clock := rfl
@[simp] theorem State.setReg_clockDraws (x : Reg) (b : Byte) : (s.setReg x b).clockDraws = s.clockDraws := rfl
@[simp] theorem State.setReg_rndDraws (x : Reg) (b : Byte) : (s.setReg x b).rndDraws = s.rndDraws := rfl
@[simp] theorem State.setReg_turns (x : Reg) (b : Byte) : (s.setReg x b).turns = s.turns := rfl
@[simp] theorem State.setReg_presents (x : Reg) (b : Byte) : (s.setReg x b).presents = s.presents := rfl
@[simp] theorem State.setReg_dtSeen (x : Reg) (b : Byte) : (s.setReg x b).dtSeen = s.dtSeen := rfl
@[simp] theorem State.setReg_stSeen (x : Reg) (b : Byte) : (s.setReg x b).stSeen = s.stSeen := rfl
@[simp] theorem State.setReg_held (x : Reg) (b : Byte) : (s.setReg x b).held = s.held := rfl

/-! `advance` -/
@[simp] theorem State.advance_mem : (s.advance).mem = s.mem := rfl
@[simp] theorem State.advance_v : (s.advance).v = s.v := rfl
@[simp] theorem State.advance_i : (s.advance).i = s.i := rfl
@[simp] theorem State.advance_pc : (s.advance).pc = s.pc + 2#16 := rfl
@[simp] theorem State.advance_stack : (s.advance).stack = s.stack := rfl
@[simp] theorem State.advance_sp : (s.advance).sp = s.sp := rfl
@[simp] theorem State.advance_dt : (s.advance).dt = s.dt := rfl
@[simp] theorem State.advance_st : (s.advance).st = s.st := rfl
@[simp] theorem State.advance_keys : (s.advance).keys = s.keys := rfl
@[simp] theorem State.advance_reqPending : (s.advance).reqPending = s.reqPending := rfl
@[simp] theorem State.advance_respValid : (s.advance).respValid = s.respValid := rfl
@[simp] theorem State.advance_respKey : (s.advance).respKey = s.respKey := rfl
@[simp] theorem State.advance_waitX : (s.advance).waitX = s.waitX := rfl
@[simp] theorem State.advance_fb : (s.advance).fb = s.fb := rfl
@[simp] theorem State.advance_run : (s.advance).run = s.run := rfl
@[simp] theorem State.advance_fault : (s.advance).fault = s.fault := rfl
@[simp] theorem State.advance_clock : (s.advance).clock = s.clock := rfl
@[simp] theorem State.advance_clockDraws : (s.advance).clockDraws = s.clockDraws := rfl
@[simp] theorem State.advance_rndDraws : (s.advance).rndDraws = s.rndDraws := rfl
@[simp] theorem State.advance_turns : (s.advance).turns = s.turns := rfl
@[simp] theorem State.advance_presents : (s.advance).presents = s.presents := rfl
@[simp] theorem State.advance_dtSeen : (s.advance).dtSeen = s.dtSeen := rfl
@[simp] theorem State.advance_stSeen : (s.advance).stSeen = s.stSeen := rfl
@[simp] theorem State.advance_held : (s.advance).held = s.held := rfl

/-! `skipIf` -/
@[simp] theorem State.skipIf_mem (c : Bool) : (s.skipIf c).mem = s.mem := rfl
@[simp] theorem State.skipIf_v (c : Bool) : (s.skipIf c).v = s.v := rfl
@[simp] theorem State.skipIf_i (c : Bool) : (s.skipIf c).i = s.i := rfl
@[simp] theorem State.skipIf_pc (c : Bool) : (s.skipIf c).pc = if c then s.pc + 4#16 else s.pc + 2#16 := rfl
@[simp] theorem State.skipIf_stack (c : Bool) : (s.skipIf c).stack = s.stack := rfl
@[simp] theorem State.skipIf_sp (c : Bool) : (s.skipIf c).sp = s.sp := rfl
@[simp] theorem State.skipIf_dt (c : Bool) : (s.skipIf c).dt = s.dt := rfl
@[simp] theorem State.skipIf_st (c : Bool) : (s.skipIf c).st = s.st := rfl
@[simp] theorem State.skipIf_keys (c : Bool) : (s.skipIf c).keys = s.keys := rfl
@[simp] theorem State.skipIf_reqPending (c : Bool) : (s.skipIf c).reqPending = s.reqPending := rfl
@[simp] theorem State.skipIf_respValid (c : Bool) : (s.skipIf c).respValid = s.respValid := rfl
@[simp] theorem State.skipIf_respKey (c : Bool) : (s.skipIf c).respKey = s.respKey := rfl
@[simp] theorem State.skipIf_waitX (c : Bool) : (s.skipIf c).waitX = s.waitX := rfl
@[simp] theorem State.skipIf_fb (c : Bool) : (s.skipIf c).fb = s.fb := rfl
@[simp] theorem State.skipIf_run (c : Bool) : (s.skipIf c).run = s.run := rfl
@[simp] theorem State.skipIf_fault (c : Bool) : (s.skipIf c).fault = s.fault := rfl
@[simp] theorem State.skipIf_clock (c : Bool) : (s.skipIf c).clock = s.clock := rfl
@[simp] theorem State.skipIf_clockDraws (c : Bool) : (s.skipIf c).clockDraws = s.clockDraws := rfl
@[simp] theorem State.skipIf_rndDraws (c : Bool) : (s.skipIf c).rndDraws = s.rndDraws := rfl
@[simp] theorem State.skipIf_turns (c : Bool) : (s.skipIf c).turns = s.turns := rfl
@[simp] theorem State.skipIf_presents (c : Bool) : (s.skipIf c).presents = s.presents := rfl
@[simp] theorem State.skipIf_dtSeen (c : Bool) : (s.skipIf c).dtSeen = s.dtSeen := rfl
@[simp] theorem State.skipIf_stSeen (c : Bool) : (s.skipIf c).stSeen = s.stSeen := rfl
@[simp] theorem State.skipIf_held (c : Bool) : (s.skipIf c).held = s.held := rfl

/-! `jump` -/
@[simp] theorem State.jump_mem (a : Word) : (s.jump a).mem = s.mem := rfl
@[simp] theorem State.jump_v (a : Word) : (s.jump a).v = s.v := rfl
@[simp] theorem State.jump_i (a : Word) : (s.jump a).i = s.i := rfl
@[simp] theorem State.jump_pc (a : Word) : (s.jump a).pc = a := rfl
@[simp] theorem State.jump_stack (a : Word) : (s.jump a).stack = s.stack := rfl
@[simp] theorem State.jump_sp (a : Word) : (s.jump a).sp = s.sp := rfl
@[simp] theorem State.jump_dt (a : Word) : (s.jump a).dt = s.dt := rfl
@[simp] theorem State.jump_st (a : Word) : (s.jump a).st = s.st := rfl
@[simp] theorem State.jump_keys (a : Word) : (s.jump a).keys = s.keys := rfl
@[simp] theorem State.jump_reqPending (a : Word) : (s.jump a).reqPending = s.reqPending := rfl
@[simp] theorem State.jump_respValid (a : Word) : (s.jump a).respValid = s.respValid := rfl
@[simp] theorem State.jump_respKey (a : Word) : (s.jump a).respKey = s.respKey := rfl
@[simp] theorem State.jump_waitX (a : Word) : (s.jump a).waitX = s.waitX := rfl
@[simp] theorem State.jump_fb (a : Word) : (s.jump a).fb = s.fb := rfl
@[simp] theorem State.jump_run (a : Word) : (s.jump a).run = s.run := rfl
@[simp] theorem State.jump_fault (a : Word) : (s.jump a).fault = s.fault := rfl
@[simp] theorem State.jump_clock (a : Word) : (s.jump a).clock = s.clock := rfl
@[simp] theorem State.jump_clockDraws (a : Word) : (s.jump a).clockDraws = s.clockDraws := rfl
@[simp] theorem State.jump_rndDraws (a : Word) : (s.jump a).rndDraws = s.rndDraws := rfl
@[simp] theorem State.jump_turns (a : Word) : (s.jump a).turns = s.turns := rfl
@[simp] theorem State.jump_presents (a : Word) : (s.jump a).presents = s.presents := rfl
@[simp] theorem State.jump_dtSeen (a : Word) : (s.jump a).dtSeen = s.dtSeen := rfl
@[simp] theorem State.jump_stSeen (a : Word) : (s.jump a).stSeen = s.stSeen := rfl
@[simp] theorem State.jump_held (a : Word) : (s.jump a).held = s.held := rfl

/-! `sampled` -/
@[simp] theorem State.sampled_mem : (s.sampled).mem = s.mem := rfl
@[simp] theorem State.sampled_v : (s.sampled).v = s.v := rfl
@[simp] theorem State.sampled_i : (s.sampled).i = s.i := rfl
@[simp] theorem State.sampled_pc : (s.sampled).pc = s.pc := rfl
@[simp] theorem State.sampled_stack : (s.sampled).stack = s.stack := rfl
@[simp] theorem State.sampled_sp : (s.sampled).sp = s.sp := rfl
@[simp] theorem State.sampled_dt : (s.sampled).dt = s.dt := rfl
@[simp] theorem State.sampled_st : (s.sampled).st = s.st := rfl
@[simp] theorem State.sampled_keys : (s.sampled).keys = s.keys := rfl
@[simp] theorem State.sampled_reqPending : (s.sampled).reqPending = s.reqPending := rfl
@[simp] theorem State.sampled_respValid : (s.sampled).respValid = s.respValid := rfl
@[simp] theorem State.sampled_respKey : (s.sampled).respKey = s.respKey := rfl
@[simp] theorem State.sampled_waitX : (s.sampled).waitX = s.waitX := rfl
@[simp] theorem State.sampled_fb : (s.sampled).fb = s.fb := rfl
@[simp] theorem State.sampled_run : (s.sampled).run = s.run := rfl
@[simp] theorem State.sampled_fault : (s.sampled).fault = s.fault := rfl
@[simp] theorem State.sampled_clock : (s.sampled).clock = s.now := rfl
@[simp] theorem State.sampled_clockDraws : (s.sampled).clockDraws = s.clockDraws + 1 := rfl
@[simp] theorem State.sampled_rndDraws : (s.sampled).rndDraws = s.rndDraws := rfl
@[simp] theorem State.sampled_turns : (s.sampled).turns = s.turns := rfl
@[simp] theorem State.sampled_presents : (s.sampled).presents = s.presents := rfl
@[simp] theorem State.sampled_dtSeen : (s.sampled).dtSeen = s.dtSeen := rfl
@[simp] theorem State.sampled_stSeen : (s.sampled).stSeen = s.stSeen := rfl
@[simp] theorem State.sampled_held : (s.sampled).held = s.held := rfl

/-! `drawn` -/
@[simp] theorem State.drawn_mem : (s.drawn).mem = s.mem := rfl
@[simp] theorem State.drawn_v : (s.drawn).v = s.v := rfl
@[simp] theorem State.drawn_i : (s.drawn).i = s.i := rfl
@[simp] theorem State.drawn_pc : (s.drawn).pc = s.pc := rfl
@[simp] theorem State.drawn_stack : (s.drawn).stack = s.stack := rfl
@[simp] theorem State.drawn_sp : (s.drawn).sp = s.sp := rfl
@[simp] theorem State.drawn_dt : (s.drawn).dt = s.dt := rfl
@[simp] theorem State.drawn_st : (s.drawn).st = s.st := rfl
@[simp] theorem State.drawn_keys : (s.drawn).keys = s.keys := rfl
@[simp] theorem State.drawn_reqPending : (s.drawn).reqPending = s.reqPending := rfl
@[simp] theorem State.drawn_respValid : (s.drawn).respValid = s.respValid := rfl
@[simp] theorem State.drawn_respKey : (s.drawn).respKey = s.respKey := rfl
@[simp] theorem State.drawn_waitX : (s.drawn).waitX = s.waitX := rfl
@[simp] theorem State.drawn_fb : (s.drawn).fb = s.fb := rfl
@[simp] theorem State.drawn_run : (s.drawn).run = s.run := rfl
@[simp] theorem State.drawn_fault : (s.drawn).fault = s.fault := rfl
@[simp] theorem State.drawn_clock : (s.drawn).clock = s.clock := rfl
@[simp] theorem State.drawn_clockDraws : (s.drawn).clockDraws = s.clockDraws := rfl
@[simp] theorem State.drawn_rndDraws : (s.drawn).rndDraws = s.rndDraws + 1 := rfl
@[simp] theorem State.drawn_turns : (s.drawn).turns = s.turns := rfl
@[simp] theorem State.drawn_presents : (s.drawn).presents = s.presents := rfl
@[simp] theorem State.drawn_dtSeen : (s.drawn).dtSeen = s.dtSeen := rfl
@[simp] theorem State.drawn_stSeen : (s.drawn).stSeen = s.stSeen := rfl
@[simp] theorem State.drawn_held : (s.drawn).held = s.held := rfl

/-! `present` -/
@[simp] theorem State.present_mem : (s.present).mem = s.mem := rfl
@[simp] theorem State.present_v : (s.present).v = s.v := rfl
@[simp] theorem State.present_i : (s.present).i = s.i := rfl
@[simp] theorem State.present_pc : (s.present).pc = s.pc := rfl
@[simp] theorem State.present_stack : (s.present).stack = s.stack := rfl
@[simp] theorem State.present_sp : (s.present).sp = s.sp := rfl
@[simp] theorem State.present_dt : (s.present).dt = s.dt := rfl
@[simp] theorem State.present_st : (s.present).st = s.st := rfl
@[simp] theorem State.present_keys : (s.present).keys = s.keys := rfl
@[simp] theorem State.present_reqPending : (s.present).reqPending = s.reqPending := rfl
@[simp] theorem State.present_respValid : (s.present).respValid = s.respValid := rfl
@[simp] theorem State.present_respKey : (s.present).respKey = s.respKey := rfl
@[simp] theorem State.present_waitX : (s.present).waitX = s.waitX := rfl
@[simp] theorem State.present_fb : (s.present).fb = s.fb := rfl
@[simp] theorem State.present_run : (s.present).run = s.run := rfl
@[simp] theorem State.present_fault : (s.present).fault = s.fault := rfl
@[simp] theorem State.present_clock : (s.present).clock = s.clock := rfl
@[simp] theorem State.present_clockDraws : (s.present).clockDraws = s.clockDraws := rfl
@[simp] theorem State.present_rndDraws : (s.present).rndDraws = s.rndDraws := rfl
@[simp] theorem State.present_turns : (s.present).turns = s.turns := rfl
@[simp] theorem State.present_presents : (s.present).presents = s.presents + 1 := rfl
@[simp] theorem State.present_dtSeen : (s.present).dtSeen = s.dtSeen := rfl
@[simp] theorem State.present_stSeen : (s.present).stSeen = s.stSeen := rfl
@[simp] theorem State.present_held : (s.present).held = s.held := rfl

/-! `setFlag` -/
@[simp] theorem State.setFlag_mem (f : Bool) : (s.setFlag f).mem = s.mem := rfl
@[simp] theorem State.setFlag_v (f : Bool) : (s.setFlag f).v = s.v.set vf.toNat (flagByte f) vf.isLt := rfl
@[simp] theorem State.setFlag_i (f : Bool) : (s.setFlag f).i = s.i := rfl
@[simp] theorem State.setFlag_pc (f : Bool) : (s.setFlag f).pc = s.pc := rfl
@[simp] theorem State.setFlag_stack (f : Bool) : (s.setFlag f).stack = s.stack := rfl
@[simp] theorem State.setFlag_sp (f : Bool) : (s.setFlag f).sp = s.sp := rfl
@[simp] theorem State.setFlag_dt (f : Bool) : (s.setFlag f).dt = s.dt := rfl
@[simp] theorem State.setFlag_st (f : Bool) : (s.setFlag f).st = s.st := rfl
@[simp] theorem State.setFlag_keys (f : Bool) : (s.setFlag f).keys = s.keys := rfl
@[simp] theorem State.setFlag_reqPending (f : Bool) : (s.setFlag f).reqPending = s.reqPending := rfl
@[simp] theorem State.setFlag_respValid (f : Bool) : (s.setFlag f).respValid = s.respValid := rfl
@[simp] theorem State.setFlag_respKey (f : Bool) : (s.setFlag f).respKey = s.respKey := rfl
@[simp] theorem State.setFlag_waitX (f : Bool) : (s.setFlag f).waitX = s.waitX := rfl
@[simp] theorem State.setFlag_fb (f : Bool) : (s.setFlag f).fb = s.fb := rfl
@[simp] theorem State.setFlag_run (f : Bool) : (s.setFlag f).run = s.run := rfl
@[simp] theorem State.setFlag_fault (f : Bool) : (s.setFlag f).fault = s.fault := rfl
@[simp] theorem State.setFlag_clock (f : Bool) : (s.setFlag f).clock = s.clock := rfl
@[simp] theorem State.setFlag_clockDraws (f : Bool) : (s.setFlag f).clockDraws = s.clockDraws := rfl
@[simp] theorem State.setFlag_rndDraws (f : Bool) : (s.setFlag f).rndDraws = s.rndDraws := rfl
@[simp] theorem State.setFlag_turns (f : Bool) : (s.setFlag f).turns = s.turns := rfl
@[simp] theorem State.setFlag_presents (f : Bool) : (s.setFlag f).presents = s.presents := rfl
@[simp] theorem State.setFlag_dtSeen (f : Bool) : (s.setFlag f).dtSeen = s.dtSeen := rfl
@[simp] theorem State.setFlag_stSeen (f : Bool) : (s.setFlag f).stSeen = s.stSeen := rfl
@[simp] theorem State.setFlag_held (f : Bool) : (s.setFlag f).held = s.held := rfl

/-! `setResultAndFlag` -/
@[simp] theorem State.setResultAndFlag_mem (x : Reg) (b : Byte) (f : Bool) : (s.setResultAndFlag x b f).mem = s.mem := rfl
@[simp] theorem State.setResultAndFlag_v (x : Reg) (b : Byte) (f : Bool) : (s.setResultAndFlag x b f).v = (s.v.set x.toNat b x.isLt).set vf.toNat (flagByte f) vf.isLt := rfl
@[simp] theorem State.setResultAndFlag_i (x : Reg) (b : Byte) (f : Bool) : (s.setResultAndFlag x b f).i = s.i := rfl
@[simp] theorem State.setResultAndFlag_pc (x : Reg) (b : Byte) (f : Bool) : (s.setResultAndFlag x b f).pc = s.pc := rfl
@[simp] theorem State.setResultAndFlag_stack (x : Reg) (b : Byte) (f : Bool) : (s.setResultAndFlag x b f).stack = s.stack := rfl
@[simp] theorem State.setResultAndFlag_sp (x : Reg) (b : Byte) (f : Bool) : (s.setResultAndFlag x b f).sp = s.sp := rfl
@[simp] theorem State.setResultAndFlag_dt (x : Reg) (b : Byte) (f : Bool) : (s.setResultAndFlag x b f).dt = s.dt := rfl
@[simp] theorem State.setResultAndFlag_st (x : Reg) (b : Byte) (f : Bool) : (s.setResultAndFlag x b f).st = s.st := rfl
@[simp] theorem State.setResultAndFlag_keys (x : Reg) (b : Byte) (f : Bool) : (s.setResultAndFlag x b f).keys = s.keys := rfl
@[simp] theorem State.setResultAndFlag_reqPending (x : Reg) (b : Byte) (f : Bool) : (s.setResultAndFlag x b f).reqPending = s.reqPending := rfl
@[simp] theorem State.setResultAndFlag_respValid (x : Reg) (b : Byte) (f : Bool) : (s.setResultAndFlag x b f).respValid = s.respValid := rfl
@[simp] theorem State.setResultAndFlag_respKey (x : Reg) (b : Byte) (f : Bool) : (s.setResultAndFlag x b f).respKey = s.respKey := rfl
@[simp] theorem State.setResultAndFlag_waitX (x : Reg) (b : Byte) (f : Bool) : (s.setResultAndFlag x b f).waitX = s.waitX := rfl
@[simp] theorem State.setResultAndFlag_fb (x : Reg) (b : Byte) (f : Bool) : (s.setResultAndFlag x b f).fb = s.fb := rfl
@[simp] theorem State.setResultAndFlag_run (x : Reg) (b : Byte) (f : Bool) : (s.setResultAndFlag x b f).run = s.run := rfl
@[simp] theorem State.setResultAndFlag_fault (x : Reg) (b : Byte) (f : Bool) : (s.setResultAndFlag x b f).fault = s.fault := rfl
@[simp] theorem State.setResultAndFlag_clock (x : Reg) (b : Byte) (f : Bool) : (s.setResultAndFlag x b f).clock = s.clock := rfl
@[simp] theorem State.setResultAndFlag_clockDraws (x : Reg) (b : Byte) (f : Bool) : (s.setResultAndFlag x b f).clockDraws = s.clockDraws := rfl
@[simp] theorem State.setResultAndFlag_rndDraws (x : Reg) (b : Byte) (f : Bool) : (s.setResultAndFlag x b f).rndDraws = s.rndDraws := rfl
@[simp] theorem State.setResultAndFlag_turns (x : Reg) (b : Byte) (f : Bool) : (s.setResultAndFlag x b f).turns = s.turns := rfl
@[simp] theorem State.setResultAndFlag_presents (x : Reg) (b : Byte) (f : Bool) : (s.setResultAndFlag x b f).presents = s.presents := rfl
@[simp] theorem State.setResultAndFlag_dtSeen (x : Reg) (b : Byte) (f : Bool) : (s.setResultAndFlag x b f).dtSeen = s.dtSeen := rfl
@[simp] theorem State.setResultAndFlag_stSeen (x : Reg) (b : Byte) (f : Bool) : (s.setResultAndFlag x b f).stSeen = s.stSeen := rfl
@[simp] theorem State.setResultAndFlag_held (x : Reg) (b : Byte) (f : Bool) : (s.setResultAndFlag x b f).held = s.held := rfl

/-! The registers through `reg` -/

theorem State.reg_eq (x : Reg) : s.reg x = s.v[x.toNat]'x.isLt := rfl

/-- Reading a register after writing one: the value written, or the old one. -/
@[simp] theorem State.reg_setReg (x r : Reg) (b : Byte) :
    (s.setReg x b).reg r = if r = x then b else s.reg r := by
  simp only [State.reg, State.setReg, Vector.getElem_set, BitVec.toNat_inj, eq_comm]

@[simp] theorem State.reg_setFlag (r : Reg) (f : Bool) :
    (s.setFlag f).reg r = if r = vf then flagByte f else s.reg r := State.reg_setReg s vf r _

/-- The flag is written last: where the destination is VF it wins (42_register_ops.md R172). -/
@[simp] theorem State.reg_setResultAndFlag (x r : Reg) (b : Byte) (f : Bool) :
    (s.setResultAndFlag x b f).reg r = if r = vf then flagByte f else if r = x then b else s.reg r := by
  simp only [State.setResultAndFlag, State.reg_setFlag, State.reg_setReg]

@[simp] theorem State.reg_advance (r : Reg) : (s.advance).reg r = s.reg r := rfl
@[simp] theorem State.reg_skipIf (r : Reg) (c : Bool) : (s.skipIf c).reg r = s.reg r := rfl
@[simp] theorem State.reg_jump (r : Reg) (a : Word) : (s.jump a).reg r = s.reg r := rfl
@[simp] theorem State.reg_sampled (r : Reg) : (s.sampled).reg r = s.reg r := rfl
@[simp] theorem State.reg_drawn (r : Reg) : (s.drawn).reg r = s.reg r := rfl
@[simp] theorem State.reg_present (r : Reg) : (s.present).reg r = s.reg r := rfl

/-- Two states with the same register file read alike. -/
theorem State.reg_congr {s t : State} (h : t.v = s.v) (r : Reg) : t.reg r = s.reg r := by
  simp only [State.reg, h]

/-- A register file is what its sixteen registers are. -/
theorem State.v_ext {s t : State} (h : ∀ r, t.reg r = s.reg r) : t.v = s.v := by
  apply Vector.ext
  intro j hj
  have := h (BitVec.ofNat 4 j)
  simpa [State.reg, Nat.mod_eq_of_lt hj] using this

end Sys2Proof.Machine
end

