-- ==== Sys2Proof/Laws/Ops.lean ====
section
/-! SUPPORT. One lemma per shared operation that says what it does: the stack, the fault, the operand forms, the
arithmetic on bytes, the timers, the block transfers. -/

namespace Sys2Proof.Machine

/-! The stack -/

/-- A push with room: the entry at sp, sp one more, nothing else. -/
theorem State.push_of_lt (s : State) (ret : Word) (h : s.sp.val < 16) :
    s.push ret = some { s with
      stack := s.stack.set s.sp.val ret h, sp := ⟨s.sp.val + 1, Nat.succ_lt_succ h⟩ } := by
  rw [State.push]
  exact dif_pos h

/-- A push on a full stack. -/
theorem State.push_full (s : State) (ret : Word) (h : s.sp.val = 16) : s.push ret = none := by
  rw [State.push]
  exact dif_neg (by rw [h]; decide)

/-- A pop of a live entry: pc from the entry below sp, sp one less, nothing else. -/
theorem State.popToPc_of_pos (s : State) (h : 0 < s.sp.val) :
    ∃ t, s.popToPc = some t ∧ t.sp.val = s.sp.val - 1 ∧
      t.pc = s.stack[s.sp.val - 1]'(by have := s.sp.isLt; omega) ∧
      t = { s with sp := t.sp, pc := t.pc } := by
  rw [State.popToPc, dif_pos h]
  exact ⟨_, rfl, rfl, rfl, rfl⟩

/-- A pop on an empty stack. -/
theorem State.popToPc_empty (s : State) (h : s.sp.val = 0) : s.popToPc = none := by
  rw [State.popToPc]
  exact dif_neg (by omega)

/-! The fault -/

/-- A fault is a next state in which only the run state and the record differ. -/
theorem raise_eq (code : FaultCode) (word addr : Option Word) (s : State) :
    raise code word addr s =
      .next { s with fault := { code := code, pc := s.pc, word := word, addr := addr }, run := .fault } := rfl

/-! Operand forms -/

@[simp] theorem toNat_zextAddr (nnn : BitVec 12) : (zextAddr nnn).toNat = nnn.toNat := by
  have := nnn.isLt
  simp only [zextAddr, BitVec.toNat_setWidth]
  omega

@[simp] theorem toNat_zextByte (b : Byte) : (zextByte b).toNat = b.toNat := by
  have := b.isLt
  simp only [zextByte, BitVec.toNat_setWidth]
  omega

@[simp] theorem toNat_keyOf (b : Byte) : (keyOf b).toNat = b.toNat % 16 := by
  simp only [keyOf, BitVec.toNat_ofNat]
  omega

/-- The range check of an access whose last byte is at I + `last`. -/
theorem State.beyondMemory_iff (s : State) (last : Nat) :
    s.beyondMemory last = true ↔ s.i.toNat + last > 4095 := decide_eq_true_iff

theorem State.beyondMemory_eq_false_iff (s : State) (last : Nat) :
    s.beyondMemory last = false ↔ s.i.toNat + last ≤ 4095 := by
  rw [← Bool.not_eq_true, State.beyondMemory_iff]
  omega

@[simp] theorem State.length_regsUpTo (s : State) (x : Reg) : (s.regsUpTo x).length = x.toNat + 1 := by
  have := x.isLt
  simp only [State.regsUpTo, List.length_take, Vector.length_toList]
  omega

/-- The `j`-th byte of a block store is V[j]. -/
theorem State.getD_regsUpTo (s : State) (x r : Reg) (h : r.toNat ≤ x.toNat) :
    (s.regsUpTo x).getD r.toNat 0#8 = s.reg r := by
  have hr : r.toNat < (s.regsUpTo x).length := by simp; omega
  rw [List.getD_eq_getElem _ _ hr]
  simp [State.regsUpTo, State.reg]

/-- After a block load: V[r] from memory up to Vx, as it was above (43_memory_addressing.md R185). -/
theorem reg_regsLoaded (x r : Reg) (s : State) :
    { s with v := regsLoaded x s }.reg r =
      if r.toNat ≤ x.toNat then s.mem.read (s.i.toNat + r.toNat) else s.reg r := by
  simp only [State.reg, regsLoaded, Vector.getElem_ofFn, State.atI]

/-! Arithmetic on bytes -/

@[simp] theorem toNat_addByte (a b : Byte) : (addByte a b).toNat = (a.toNat + b.toNat) % 256 := by
  simp [addByte]

@[simp] theorem toNat_subByte (a b : Byte) : (subByte a b).toNat = (a.toNat + 256 - b.toNat) % 256 := by
  simp [subByte]

@[simp] theorem toNat_halfByte (a : Byte) : (halfByte a).toNat = a.toNat / 2 := by
  have := a.isLt
  simp only [halfByte, BitVec.toNat_ofNat]
  omega

@[simp] theorem toNat_doubleByte (a : Byte) : (doubleByte a).toNat = a.toNat * 2 % 256 := by
  simp [doubleByte]

theorem flagByte_eq_ite (f : Bool) : flagByte f = if f = true then 1#8 else 0#8 := by
  cases f <;> rfl

/-! The timers -/

/-- The value of a timer: what was set less the ticks elapsed, never below 0 (47_timers.md R231). -/
@[simp] theorem toNat_timerValue (T : Timer) (t : Nat) :
    (timerValue T t).toNat = T.val.toNat - ticksIn (t - T.tSet) := by
  have := T.val.isLt
  unfold timerValue
  split
  · simp; omega
  · simp only [BitVec.toNat_ofNat]
    omega

/-- Elapsed ticks never decrease (47_timers.md R231). -/
theorem ticksIn_mono {a b : Nat} (h : a ≤ b) : ticksIn a ≤ ticksIn b := by
  simp only [ticksIn, Config.ticksPerSec, Config.secondUs, Config.tickUs]
  omega

theorem State.clock_le_now (s : State) : s.clock ≤ s.now := Nat.le_add_right _ _

end Sys2Proof.Machine
end

