-- ==== Sys2Proof/Laws/Engine.lean ====
section
/-! SUPPORT. What one step is, by whose turn it is (40_fetch_dispatch.md R120). -/

namespace Sys2Proof.Machine

/-! Taking a turn off the list changes nothing else -/

@[simp] theorem turnTaken_mem (s : State) : (turnTaken s).mem = s.mem := rfl
@[simp] theorem turnTaken_v (s : State) : (turnTaken s).v = s.v := rfl
@[simp] theorem turnTaken_i (s : State) : (turnTaken s).i = s.i := rfl
@[simp] theorem turnTaken_pc (s : State) : (turnTaken s).pc = s.pc := rfl
@[simp] theorem turnTaken_stack (s : State) : (turnTaken s).stack = s.stack := rfl
@[simp] theorem turnTaken_sp (s : State) : (turnTaken s).sp = s.sp := rfl
@[simp] theorem turnTaken_dt (s : State) : (turnTaken s).dt = s.dt := rfl
@[simp] theorem turnTaken_st (s : State) : (turnTaken s).st = s.st := rfl
@[simp] theorem turnTaken_keys (s : State) : (turnTaken s).keys = s.keys := rfl
@[simp] theorem turnTaken_reqPending (s : State) : (turnTaken s).reqPending = s.reqPending := rfl
@[simp] theorem turnTaken_respValid (s : State) : (turnTaken s).respValid = s.respValid := rfl
@[simp] theorem turnTaken_respKey (s : State) : (turnTaken s).respKey = s.respKey := rfl
@[simp] theorem turnTaken_waitX (s : State) : (turnTaken s).waitX = s.waitX := rfl
@[simp] theorem turnTaken_fb (s : State) : (turnTaken s).fb = s.fb := rfl
@[simp] theorem turnTaken_run (s : State) : (turnTaken s).run = s.run := rfl
@[simp] theorem turnTaken_fault (s : State) : (turnTaken s).fault = s.fault := rfl
@[simp] theorem turnTaken_clock (s : State) : (turnTaken s).clock = s.clock := rfl
@[simp] theorem turnTaken_clockDraws (s : State) : (turnTaken s).clockDraws = s.clockDraws := rfl
@[simp] theorem turnTaken_rndDraws (s : State) : (turnTaken s).rndDraws = s.rndDraws := rfl
@[simp] theorem turnTaken_presents (s : State) : (turnTaken s).presents = s.presents := rfl
@[simp] theorem turnTaken_dtSeen (s : State) : (turnTaken s).dtSeen = s.dtSeen := rfl
@[simp] theorem turnTaken_stSeen (s : State) : (turnTaken s).stSeen = s.stSeen := rfl
@[simp] theorem turnTaken_held (s : State) : (turnTaken s).held = s.held := rfl
@[simp] theorem turnTaken_turns (s : State) : (turnTaken s).turns = s.turns.tail := rfl
@[simp] theorem turnTaken_reg (s : State) (r : Reg) : (turnTaken s).reg r = s.reg r := rfl
@[simp] theorem turnTaken_fetch (s : State) : fetch (turnTaken s) = fetch s := rfl

/-! One step -/

/-- The engine's turn, held in reset or not. -/
theorem step_engineNext {s : State} (h : EngineNext s) : step s = engineStep (turnTaken s) := by
  rcases h with h | h
  · have hs : turnTaken s = s := by
      cases s
      simp_all [turnTaken]
    rw [hs, step, takeTurn, h]
  · cases hts : s.turns with
    | nil => simp [hts] at h
    | cons t rest =>
      simp only [hts, List.head?_cons, Option.some.injEq] at h
      subst h
      simp [step, takeTurn, turnTaken, hts]

/-- A host event's turn: always a next state. -/
theorem step_host {s : State} {e : HostEvent} {rest : List Turn} (h : s.turns = .host e :: rest) :
    step s = .next (hostStep e (turnTaken s)) := by
  simp [step, takeTurn, turnTaken, h]

/-- Every turn is the engine's or a host event's. -/
theorem turn_cases (s : State) : EngineNext s ∨ ∃ e rest, s.turns = .host e :: rest := by
  unfold EngineNext
  cases s.turns with
  | nil => exact .inl (.inl rfl)
  | cons t rest =>
    cases t with
    | engine => exact .inl (.inr rfl)
    | host e => exact .inr ⟨e, rest, rfl⟩

/-- No step at all leaves the state. -/
theorem core_run_zero (s : State) : core.run 0 s = .next s := rfl

/-- A run of one step more goes on from the next state. -/
theorem core_run_succ {s t : State} (h : step s = .next t) (k : Nat) : core.run (k + 1) s = core.run k t := by
  simp only [Host.Core.run]
  rw [show core.step s = .next t from h]

/-- The engine in RUN: a fetch fault, a decode fault, or the decoded instruction. -/
theorem engineStep_run {s : State} (hh : s.held = false) (h : s.run = .run) : engineStep s = runInstruction s := by
  simp [engineStep, engineEnabled, enabledStep, hh, h]

/-- The engine in WAIT_KEY: phase B once a key has been handed off, else nothing. -/
theorem engineStep_waitKey {s : State} (hh : s.held = false) (h : s.run = .waitKey) :
    engineStep s = if s.respValid = true then .next (takeKey s) else .next s := by
  simp [engineStep, engineEnabled, enabledStep, hh, h]

/-- The engine in HALT or FAULT has no step: it idles. -/
theorem engineStep_ended {s : State} (h : runEnded s = true) : engineStep s = .next s := by
  unfold runEnded at h
  unfold engineStep engineEnabled
  cases hr : s.run <;> simp_all

/-- The engine held in reset has no step: it idles. -/
theorem engineStep_held {s : State} (h : s.held = true) : engineStep s = .next s := by
  unfold engineStep engineEnabled
  cases hr : s.run <;> simp [h]

/-- The step of a running engine that has the turn is that of the instruction at pc. -/
theorem step_run {s : State} (he : EngineTurn s) (h : s.run = .run) : step s = runInstruction (turnTaken s) :=
  (step_engineNext he.2).trans (engineStep_run he.1 h)

/-- What a reset event does, by its image: loaded where it fits, refused where it does not. -/
theorem hostStep_carries {e : HostEvent} {image : List Byte} {fill : List Host.Cell} (h : Carries e image fill)
    (s : State) : hostStep e s = loadOrRefuse image fill s := by
  rcases h with rfl | ⟨text, rfl, h⟩
  · rfl
  · simp only [hostStep, h]

theorem loadOrRefuse_of_le {image : List Byte} (h : image.length ≤ 3584) (fill : List Host.Cell) (s : State) :
    loadOrRefuse image fill s = resetWith image fill s := if_neg (Nat.not_lt.mpr h)

/-- A refused load leaves every field but `held` as it was. -/
theorem hostStep_refused {e : HostEvent} (h : LoadRefused e) (s : State) : hostStep e s = { s with held := true } := by
  rcases h with ⟨image, fill, hc, hl⟩ | ⟨text, fill, rfl, h⟩
  · rw [hostStep_carries hc]
    exact if_pos hl
  · simp only [hostStep, h, refuseLoad]

/-- A host event that is no reset changes neither the run but to HALT, nor anything the engine owns. -/
theorem hostStep_frame {e : HostEvent} (h : isReset e = false) (s : State) :
    KeepsBut [] [.keys, .channel, .run, .clock, .polls] s (hostStep e s) ∧
      ((hostStep e s).run = s.run ∨ (hostStep e s).run = .halt) := by
  cases e with
  | keyDown k =>
    simp only [hostStep, keyDown]
    split <;> simp [KeepsBut, State.reg]
  | keyUp k => simp [hostStep, keyUp, KeepsBut, State.reg]
  | stop =>
    simp only [hostStep, stopRun]
    split <;> simp [KeepsBut, State.reg, *]
  | reset image fill => simp [isReset] at h
  | resetText text fill => simp [isReset] at h
  | pollDt => simp [hostStep, pollDt, KeepsBut, State.reg]
  | pollSt => simp [hostStep, pollSt, KeepsBut, State.reg]

/-- The word fetched, where pc and pc + 1 are in memory (40_fetch_dispatch.md R121). -/
theorem fetch_of_le {s : State} (h : s.pc.toNat + 1 ≤ 4095) :
    fetch s = some (wordOf (s.mem.read s.pc.toNat) (s.mem.read (s.pc.toNat + 1))) := by
  rw [fetch, if_neg (by omega)]

theorem fetch_of_gt {s : State} (h : s.pc.toNat + 1 > 4095) : fetch s = none := by
  rw [fetch, if_pos h]

/-- Fetch looks at memory and pc only. -/
theorem fetch_congr {s t : State} (hm : t.mem = s.mem) (hp : t.pc = s.pc) : fetch t = fetch s := by
  simp only [fetch, hm, hp]

end Sys2Proof.Machine
end

