-- ==== Sys2Proof/Laws/PerInstr.lean ====
section
/-! SUPPORT. A statement about every instruction as syntax, one lemma per constructor: its word agrees with the
mask and match of its own row of the opcode map (30_encoding.md R95). -/

namespace Sys2Proof.Laws.TableRow

/-- The row's mask (30_encoding.md R95, column "mask"). -/
def mask (i : Instr) : Word :=
  match i with
  | .cls | .ret => 0xFFFF#16
  | .sys _ | .jp _ | .call _ | .ldI _ | .jpV0 _ | .seImm _ _ | .sneImm _ _ | .ldImm _ _ => 0xF000#16
  | .addImm _ _ | .rnd _ _ | .drw _ _ _ => 0xF000#16
  | .seReg _ _ | .sneReg _ _ | .ldReg _ _ | .orReg _ _ | .andReg _ _ | .xorReg _ _ => 0xF00F#16
  | .addReg _ _ | .sub _ _ | .shr _ _ | .subn _ _ | .shl _ _ => 0xF00F#16
  | .skp _ | .sknp _ | .ldVxDt _ | .ldVxK _ | .ldDtVx _ | .ldStVx _ | .addI _ | .ldF _ => 0xF0FF#16
  | .ldB _ | .storeRegs _ | .loadRegs _ => 0xF0FF#16

/-- The row's match (30_encoding.md R95, column "match"). -/
def pattern (i : Instr) : Word :=
  match i with
  | .sys _ => 0x0000#16
  | .cls => 0x00E0#16
  | .ret => 0x00EE#16
  | .jp _ => 0x1000#16
  | .call _ => 0x2000#16
  | .seImm _ _ => 0x3000#16
  | .sneImm _ _ => 0x4000#16
  | .seReg _ _ => 0x5000#16
  | .ldImm _ _ => 0x6000#16
  | .addImm _ _ => 0x7000#16
  | .ldReg _ _ => 0x8000#16
  | .orReg _ _ => 0x8001#16
  | .andReg _ _ => 0x8002#16
  | .xorReg _ _ => 0x8003#16
  | .addReg _ _ => 0x8004#16
  | .sub _ _ => 0x8005#16
  | .shr _ _ => 0x8006#16
  | .subn _ _ => 0x8007#16
  | .shl _ _ => 0x800E#16
  | .sneReg _ _ => 0x9000#16
  | .ldI _ => 0xA000#16
  | .jpV0 _ => 0xB000#16
  | .rnd _ _ => 0xC000#16
  | .drw _ _ _ => 0xD000#16
  | .skp _ => 0xE09E#16
  | .sknp _ => 0xE0A1#16
  | .ldVxDt _ => 0xF007#16
  | .ldVxK _ => 0xF00A#16
  | .ldDtVx _ => 0xF015#16
  | .ldStVx _ => 0xF018#16
  | .addI _ => 0xF01E#16
  | .ldF _ => 0xF029#16
  | .ldB _ => 0xF033#16
  | .storeRegs _ => 0xF055#16
  | .loadRegs _ => 0xF065#16

/-- The instruction's word selects its own row. -/
def Statement (i : Instr) : Prop := encode i &&& mask i = pattern i

theorem nnn_row (op : BitVec 4) (nnn : BitVec 12) : formNNN op nnn &&& 0xF000#16 = op ++ 0x000#12 := by
  rw [formNNN, show (0xF000#16 : BitVec 16) = 0xF#4 ++ 0x000#12 from rfl, BitVec.and_append,
    BitVec.and_zero, show (0xF#4 : BitVec 4) = BitVec.allOnes 4 from rfl, BitVec.and_allOnes]

theorem xnn_row (op : BitVec 4) (x : Reg) (nn : Byte) :
    formXNN op x nn &&& 0xF000#16 = op ++ 0x0#4 ++ 0x00#8 := by
  rw [formXNN, show (0xF000#16 : BitVec 16) = 0xF#4 ++ 0x0#4 ++ 0x00#8 from rfl, BitVec.and_append,
    BitVec.and_append, BitVec.and_zero, BitVec.and_zero,
    show (0xF#4 : BitVec 4) = BitVec.allOnes 4 from rfl, BitVec.and_allOnes]

theorem x_row (op : BitVec 4) (x : Reg) (nn : Byte) :
    formXNN op x nn &&& 0xF0FF#16 = op ++ 0x0#4 ++ nn := by
  rw [formXNN, show (0xF0FF#16 : BitVec 16) = 0xF#4 ++ 0x0#4 ++ 0xFF#8 from rfl, BitVec.and_append,
    BitVec.and_append, BitVec.and_zero, show (0xF#4 : BitVec 4) = BitVec.allOnes 4 from rfl,
    show (0xFF#8 : BitVec 8) = BitVec.allOnes 8 from rfl, BitVec.and_allOnes, BitVec.and_allOnes]

theorem xy_row (op : BitVec 4) (x y : Reg) (n : BitVec 4) :
    formXYN op x y n &&& 0xF00F#16 = op ++ 0x0#4 ++ 0x0#4 ++ n := by
  rw [formXYN, show (0xF00F#16 : BitVec 16) = 0xF#4 ++ 0x0#4 ++ 0x0#4 ++ 0xF#4 from rfl,
    BitVec.and_append, BitVec.and_append, BitVec.and_append, BitVec.and_zero,
    BitVec.and_zero, show (0xF#4 : BitVec 4) = BitVec.allOnes 4 from rfl, BitVec.and_allOnes, BitVec.and_allOnes]

theorem xyn_row (op : BitVec 4) (x y : Reg) (n : BitVec 4) :
    formXYN op x y n &&& 0xF000#16 = op ++ 0x0#4 ++ 0x0#4 ++ 0x0#4 := by
  rw [formXYN, show (0xF000#16 : BitVec 16) = 0xF#4 ++ 0x0#4 ++ 0x0#4 ++ 0x0#4 from rfl,
    BitVec.and_append, BitVec.and_append, BitVec.and_append, BitVec.and_zero,
    BitVec.and_zero, BitVec.and_zero, show (0xF#4 : BitVec 4) = BitVec.allOnes 4 from rfl, BitVec.and_allOnes]

theorem sys (nnn : BitVec 12) : Statement (.sys nnn) := nnn_row 0x0#4 nnn
theorem cls : Statement .cls := rfl
theorem ret : Statement .ret := rfl
theorem jp (nnn : BitVec 12) : Statement (.jp nnn) := nnn_row 0x1#4 nnn
theorem call (nnn : BitVec 12) : Statement (.call nnn) := nnn_row 0x2#4 nnn
theorem seImm (x : Reg) (nn : Byte) : Statement (.seImm x nn) := xnn_row 0x3#4 x nn
theorem sneImm (x : Reg) (nn : Byte) : Statement (.sneImm x nn) := xnn_row 0x4#4 x nn
theorem seReg (x y : Reg) : Statement (.seReg x y) := xy_row 0x5#4 x y 0x0#4
theorem ldImm (x : Reg) (nn : Byte) : Statement (.ldImm x nn) := xnn_row 0x6#4 x nn
theorem addImm (x : Reg) (nn : Byte) : Statement (.addImm x nn) := xnn_row 0x7#4 x nn
theorem ldReg (x y : Reg) : Statement (.ldReg x y) := xy_row 0x8#4 x y 0x0#4
theorem orReg (x y : Reg) : Statement (.orReg x y) := xy_row 0x8#4 x y 0x1#4
theorem andReg (x y : Reg) : Statement (.andReg x y) := xy_row 0x8#4 x y 0x2#4
theorem xorReg (x y : Reg) : Statement (.xorReg x y) := xy_row 0x8#4 x y 0x3#4
theorem addReg (x y : Reg) : Statement (.addReg x y) := xy_row 0x8#4 x y 0x4#4
theorem sub (x y : Reg) : Statement (.sub x y) := xy_row 0x8#4 x y 0x5#4
theorem shr (x y : Reg) : Statement (.shr x y) := xy_row 0x8#4 x y 0x6#4
theorem subn (x y : Reg) : Statement (.subn x y) := xy_row 0x8#4 x y 0x7#4
theorem shl (x y : Reg) : Statement (.shl x y) := xy_row 0x8#4 x y 0xE#4
theorem sneReg (x y : Reg) : Statement (.sneReg x y) := xy_row 0x9#4 x y 0x0#4
theorem ldI (nnn : BitVec 12) : Statement (.ldI nnn) := nnn_row 0xA#4 nnn
theorem jpV0 (nnn : BitVec 12) : Statement (.jpV0 nnn) := nnn_row 0xB#4 nnn
theorem rnd (x : Reg) (nn : Byte) : Statement (.rnd x nn) := xnn_row 0xC#4 x nn
theorem drw (x y : Reg) (n : BitVec 4) : Statement (.drw x y n) := xyn_row 0xD#4 x y n
theorem skp (x : Reg) : Statement (.skp x) := (x_row 0xE#4 x 0x9E#8).trans rfl
theorem sknp (x : Reg) : Statement (.sknp x) := (x_row 0xE#4 x 0xA1#8).trans rfl
theorem ldVxDt (x : Reg) : Statement (.ldVxDt x) := (x_row 0xF#4 x 0x07#8).trans rfl
theorem ldVxK (x : Reg) : Statement (.ldVxK x) := (x_row 0xF#4 x 0x0A#8).trans rfl
theorem ldDtVx (x : Reg) : Statement (.ldDtVx x) := (x_row 0xF#4 x 0x15#8).trans rfl
theorem ldStVx (x : Reg) : Statement (.ldStVx x) := (x_row 0xF#4 x 0x18#8).trans rfl
theorem addI (x : Reg) : Statement (.addI x) := (x_row 0xF#4 x 0x1E#8).trans rfl
theorem ldF (x : Reg) : Statement (.ldF x) := (x_row 0xF#4 x 0x29#8).trans rfl
theorem ldB (x : Reg) : Statement (.ldB x) := (x_row 0xF#4 x 0x33#8).trans rfl
theorem storeRegs (x : Reg) : Statement (.storeRegs x) := (x_row 0xF#4 x 0x55#8).trans rfl
theorem loadRegs (x : Reg) : Statement (.loadRegs x) := (x_row 0xF#4 x 0x65#8).trans rfl

end Sys2Proof.Laws.TableRow
end

