-- ==== Sys2Proof/Tests/Slice0.lean ====
section
/-! SUPPORT. Tests. Expected results are the spec's own vectors (95_test_vectors.md, the id in each comment) or
the worked example of the rule named; the witnesses at the end meet the hypotheses of the statements. -/

namespace Sys2Proof.Tests

open Sys2Proof.Machine

/-! WellFormed: one ill-formed term for each check -/

theorem test_sys_at_cls_is_ill_formed : WellFormed (.sys 0x0E0#12) = false := by decide
theorem test_sys_at_ret_is_ill_formed : WellFormed (.sys 0x0EE#12) = false := by decide
theorem test_sys_zero_is_well_formed : WellFormed (.sys 0x000#12) = true := by decide

/-! Decoding: a word of every row, written out from 30_encoding.md R95 -/

theorem test_decode_noop_and_drawing :
    decodeWord 0x0123#16 = .ok (.sys 0x123#12) ∧ decodeWord 0x00E1#16 = .ok (.sys 0x0E1#12) ∧
    decodeWord 0x00E0#16 = .ok .cls ∧ decodeWord 0xD12F#16 = .ok (.drw 1#4 2#4 0xF#4) := by decide

theorem test_decode_control :
    decodeWord 0x00EE#16 = .ok .ret ∧ decodeWord 0x1204#16 = .ok (.jp 0x204#12) ∧
    decodeWord 0x220A#16 = .ok (.call 0x20A#12) ∧ decodeWord 0x3F01#16 = .ok (.seImm 0xF#4 0x01#8) ∧
    decodeWord 0x4311#16 = .ok (.sneImm 3#4 0x11#8) ∧ decodeWord 0x5120#16 = .ok (.seReg 1#4 2#4) ∧
    decodeWord 0x9120#16 = .ok (.sneReg 1#4 2#4) ∧ decodeWord 0xB300#16 = .ok (.jpV0 0x300#12) := by decide

theorem test_decode_register :
    decodeWord 0x6A2A#16 = .ok (.ldImm 0xA#4 0x2A#8) ∧ decodeWord 0x7002#16 = .ok (.addImm 0#4 0x02#8) ∧
    decodeWord 0x8120#16 = .ok (.ldReg 1#4 2#4) ∧ decodeWord 0x8121#16 = .ok (.orReg 1#4 2#4) ∧
    decodeWord 0x8122#16 = .ok (.andReg 1#4 2#4) ∧ decodeWord 0x8123#16 = .ok (.xorReg 1#4 2#4) ∧
    decodeWord 0x8124#16 = .ok (.addReg 1#4 2#4) ∧ decodeWord 0x8125#16 = .ok (.sub 1#4 2#4) ∧
    decodeWord 0x8126#16 = .ok (.shr 1#4 2#4) ∧ decodeWord 0x8127#16 = .ok (.subn 1#4 2#4) ∧
    decodeWord 0x812E#16 = .ok (.shl 1#4 2#4) := by decide

theorem test_decode_addressing_and_random :
    decodeWord 0xA100#16 = .ok (.ldI 0x100#12) ∧ decodeWord 0xF71E#16 = .ok (.addI 7#4) ∧
    decodeWord 0xF729#16 = .ok (.ldF 7#4) ∧ decodeWord 0xF733#16 = .ok (.ldB 7#4) ∧
    decodeWord 0xF755#16 = .ok (.storeRegs 7#4) ∧ decodeWord 0xF765#16 = .ok (.loadRegs 7#4) ∧
    decodeWord 0xC30F#16 = .ok (.rnd 3#4 0x0F#8) := by decide

theorem test_decode_input_and_timers :
    decodeWord 0xE79E#16 = .ok (.skp 7#4) ∧ decodeWord 0xE7A1#16 = .ok (.sknp 7#4) ∧
    decodeWord 0xF70A#16 = .ok (.ldVxK 7#4) ∧ decodeWord 0xF707#16 = .ok (.ldVxDt 7#4) ∧
    decodeWord 0xF715#16 = .ok (.ldDtVx 7#4) ∧ decodeWord 0xF718#16 = .ok (.ldStVx 7#4) := by decide

/-- T0.5 to T0.9. -/
theorem test_decode_illegal :
    decodeWord 0x5001#16 = .error (.illegal 0x5001#16) ∧ decodeWord 0x9121#16 = .error (.illegal 0x9121#16) ∧
    decodeWord 0x8018#16 = .error (.illegal 0x8018#16) ∧ decodeWord 0x800F#16 = .error (.illegal 0x800F#16) ∧
    decodeWord 0xE19F#16 = .error (.illegal 0xE19F#16) ∧ decodeWord 0xF075#16 = .error (.illegal 0xF075#16) ∧
    decodeBytes [0xA1#8] = .error .truncated := by decide

/-- 20_memory.md R64: the high byte comes first. -/
theorem test_decode_bytes_big_endian :
    decodeBytes [0xA1#8, 0x00#8] = .ok (.ldI 0x100#12, []) ∧ decodeTableWord 16 0xA100 = some (.ldI 0x100#12) ∧
    encodeBytes (.ldI 0x100#12) = [0xA1#8, 0x00#8] := by decide

/-! One step on a small state -/

/-- What `f` reads after one step that runs the word `w` at pc. -/
def after {α : Type} (s : State) (w : Word) (f : State → α) : Option α :=
  match step (placeWord s w) with
  | .next t => some (f t)
  | .fault _ | .refused _ => none

/-- The reset state with V0 = a, V1 = b. -/
def regs (a b : Byte) : State := (State.reset.setReg 0#4 a).setReg 1#4 b

/-- The reset state with VF = f, V1 = b. -/
def flagAnd (f b : Byte) : State := (State.reset.setReg vf f).setReg 1#4 b

/-- The reset state with I = i, V0 = a. -/
def addressed (i : Word) (a : Byte) : State := { State.reset.setReg 0#4 a with i := i }

/-- The run state, the fault's number and the pc after a step. -/
def faulted (t : State) : RunState × Nat × Word := (t.run, t.fault.code.number, t.pc)

/-- T0.2. -/
theorem test_last_word_runs : after { State.reset with pc := 0xFFE#16 } 0x0000#16 (fun t => (t.run, t.pc)) =
    some (.run, 0x1000#16) := by decide

/-- T0.4. -/
theorem test_fetch_at_top_faults : after { State.reset with pc := 0xFFF#16 } 0x0000#16 faulted =
    some (.fault, 6, 0xFFF#16) := by decide

/-- T0.5. -/
theorem test_illegal_word_faults : after State.reset 0x5001#16 (fun t => (faulted t, t.fault.word)) =
    some ((.fault, 1, 0x200#16), some 0x5001#16) := by decide

/-- T0.12: an odd pc. -/
theorem test_odd_pc_is_legal : after { State.reset with pc := 0x201#16 } 0x602A#16
    (fun t => (t.reg 0#4, t.pc)) = some (0x2A#8, 0x203#16) := by decide

/-- T8.1. -/
theorem test_sys : after State.reset 0x0123#16 (fun t => (t.pc, t.v, t.sp)) =
    some (0x202#16, State.reset.v, 0) := by decide

/-- T1.1. -/
theorem test_jp : after { State.reset with pc := 0x20A#16 } 0x1204#16 (fun t => (t.pc, t.run)) =
    some (0x204#16, .run) := by decide

/-- T1.4, T1.5: the self-jump under either setting of the detector. -/
theorem test_jp_to_itself : exec (.jp 0x200#12) State.reset =
    .next { State.reset with run := if Config.selfJumpHalt = true then .halt else .run } := by
  cases h : Config.selfJumpHalt <;> simp [exec, execJp, State.jump, zextAddr, State.reset, h]

/-- T1.7. -/
theorem test_call_sixteenth : after { State.reset with sp := 15 } 0x2300#16
    (fun t => (t.stack[15], t.sp.val, t.pc)) = some (0x202#16, 16, 0x300#16) := by decide

/-- T1.9. -/
theorem test_call_seventeenth_faults : after { State.reset with sp := 16 } 0x2300#16
    (fun t => (faulted t, t.sp.val)) = some ((.fault, 2, 0x200#16), 16) := by decide

/-- T1.11. -/
theorem test_ret : after { State.reset with sp := 1, stack := State.reset.stack.set 0 0x206#16 } 0x00EE#16
    (fun t => (t.sp.val, t.pc, t.stack[0])) = some (0, 0x206#16, 0x206#16) := by decide

/-- T1.10. -/
theorem test_ret_empty_faults : after State.reset 0x00EE#16 faulted = some (.fault, 3, 0x200#16) := by decide

/-- T1.13: the sum goes past 12 bits and does not fault here. -/
theorem test_jp_v0 : after (regs 0xFF#8 0#8) 0xBFFF#16 (fun t => (t.pc, t.run)) =
    some (0x10FE#16, .run) := by decide

/-- T1.14, T1.15 (at 0x200). -/
theorem test_se_imm : after (regs 0#8 0#8) 0x3000#16 State.pc = some 0x204#16 ∧
    after (regs 1#8 0#8) 0x3000#16 State.pc = some 0x202#16 := by decide

/-- T1.17 (at 0x200). -/
theorem test_sne_imm : after (regs 0x10#8 0#8) 0x4011#16 State.pc = some 0x204#16 ∧
    after (regs 0x10#8 0#8) 0x4010#16 State.pc = some 0x202#16 := by decide

/-- T1.18 and R146. -/
theorem test_se_reg : after (regs 5#8 5#8) 0x5010#16 State.pc = some 0x204#16 ∧
    after (regs 5#8 6#8) 0x5010#16 State.pc = some 0x202#16 := by decide

/-- T1.19, T1.20. -/
theorem test_sne_reg : after (regs 1#8 2#8) 0x9010#16 State.pc = some 0x204#16 ∧
    after State.reset 0x9000#16 State.pc = some 0x202#16 := by decide

/-- R160 example. -/
theorem test_ld_imm : after State.reset 0x6A2A#16 (fun t => (t.reg 0xA#4, t.pc)) =
    some (0x2A#8, 0x202#16) := by decide

/-- R161 example. -/
theorem test_ld_reg : after (regs 0#8 0x55#8) 0x8010#16 (fun t => (t.reg 0#4, t.reg 1#4)) =
    some (0x55#8, 0x55#8) := by decide

/-- R162 example: wraps, no flag. -/
theorem test_add_imm : after (regs 0xFF#8 0#8) 0x7002#16 (fun t => (t.reg 0#4, t.reg vf)) =
    some (0x01#8, 0#8) := by decide

/-- R163, R164, R165 examples. -/
theorem test_or : after (regs 0xF0#8 0x0F#8) 0x8011#16 (fun t => t.reg 0#4) = some 0xFF#8 := by decide
theorem test_and : after (regs 0xF0#8 0x3C#8) 0x8012#16 (fun t => t.reg 0#4) = some 0x30#8 := by decide
theorem test_xor : after (regs 0xF0#8 0x3C#8) 0x8013#16 (fun t => t.reg 0#4) = some 0xCC#8 := by decide

/-- T2.10. -/
theorem test_add_reg_carry : after (regs 0xC8#8 0x64#8) 0x8014#16 (fun t => (t.reg 0#4, t.reg vf)) =
    some (0x2C#8, 1#8) := by decide

/-- T2.16: the flag wins in VF. -/
theorem test_add_reg_into_vf : after (flagAnd 0xFF#8 0x02#8) 0x8F14#16 (fun t => t.reg vf) =
    some 1#8 := by decide

/-- T2.18, T2.19. -/
theorem test_sub : after (regs 0x05#8 0x07#8) 0x8015#16 (fun t => (t.reg 0#4, t.reg vf)) = some (0xFE#8, 0#8) ∧
    after (regs 0x07#8 0x07#8) 0x8015#16 (fun t => (t.reg 0#4, t.reg vf)) = some (0#8, 1#8) := by decide

/-- T2.22: the old VF is the subtrahend. -/
theorem test_sub_vf_as_source : after (flagAnd 0x01#8 0#8) 0x80F5#16 (fun t => (t.reg 0#4, t.reg vf)) =
    some (0xFF#8, 0#8) := by decide

/-- T2.25, T2.26. -/
theorem test_subn : after (regs 0x05#8 0x07#8) 0x8017#16 (fun t => (t.reg 0#4, t.reg vf)) = some (0x02#8, 1#8) ∧
    after (regs 0x07#8 0x05#8) 0x8017#16 (fun t => (t.reg 0#4, t.reg vf)) = some (0xFE#8, 0#8) := by decide

/-- T2.30: Vy is ignored. -/
theorem test_shr : after (regs 0x05#8 0xFF#8) 0x8016#16 (fun t => (t.reg 0#4, t.reg 1#4, t.reg vf)) =
    some (0x02#8, 0xFF#8, 1#8) := by decide

/-- T2.32, T2.33. -/
theorem test_shl : after (regs 0x81#8 0#8) 0x800E#16 (fun t => (t.reg 0#4, t.reg vf)) = some (0x02#8, 1#8) ∧
    after (regs 0x7F#8 0#8) 0x80AE#16 (fun t => (t.reg 0#4, t.reg vf)) = some (0xFE#8, 0#8) := by decide

/-- T3.1. -/
theorem test_ld_i : after State.reset 0xA100#16 (fun t => (t.i, t.pc)) = some (0x100#16, 0x202#16) := by decide

/-- T3.2b: wraps at 16 bits, no flag. -/
theorem test_add_i : after (addressed 0xFFFF#16 0x02#8) 0xF01E#16 (fun t => (t.i, t.reg vf)) =
    some (0x0001#16, 0#8) := by decide

/-- T3.3. -/
theorem test_ld_f : after (regs 0x1A#8 0#8) 0xF029#16 State.i = some 0x132#16 ∧
    after (regs 0xFF#8 0#8) 0xF029#16 State.i = some 0x14B#16 := by decide

/-- T3.4. -/
theorem test_ld_b : after (addressed 0x300#16 0xFE#8) 0xF033#16
    (fun t => (t.mem.readBytes 0x300 3, t.i)) = some ([2#8, 5#8, 4#8], 0x300#16) := by decide

/-- T3.7. -/
theorem test_ld_b_faults : after (addressed 0xFFE#16 0xFF#8) 0xF033#16
    (fun t => (faulted t, t.mem.read 0xFFE, t.fault.addr)) =
    some ((.fault, 5, 0x200#16), 0#8, some 0xFFE#16) := by decide

/-- T3.16: the store overwrites its own instruction. -/
theorem test_store_regs_self : after { regs 0x12#8 0x00#8 with i := 0x200#16 } 0xF155#16
    (fun t => (t.mem.readBytes 0x200 2, t.pc, t.i)) = some ([0x12#8, 0x00#8], 0x202#16, 0x200#16) := by decide

/-- T3.12. -/
theorem test_store_regs_faults : after (addressed 0x1000#16 0#8) 0xF055#16 faulted =
    some (.fault, 7, 0x200#16) := by decide

/-- T3.13: reads the font's digit 0. -/
theorem test_load_regs : after (addressed 0x100#16 0#8) 0xF265#16
    (fun t => (t.reg 0#4, t.reg 1#4, t.reg 2#4, t.reg 3#4, t.i)) =
    some (0xF0#8, 0x90#8, 0x90#8, 0#8, 0x100#16) := by decide

/-- T3.15. -/
theorem test_load_regs_faults : after (addressed 0xFFF#16 7#8) 0xF165#16
    (fun t => (faulted t, t.reg 0#4)) = some ((.fault, 8, 0x200#16), 7#8) := by decide

/-- T4.1, T4.3. -/
theorem test_rnd : (rndWith 0xA7#8 0#4 0x0F#8 State.reset).reg 0#4 = 0x07#8 ∧
    (rndWith 0xA7#8 0#4 0x00#8 (regs 0x55#8 0#8)).reg 0#4 = 0#8 := by decide

/-- T5.16. -/
theorem test_cls : after { State.reset with fb := Frame.blank.toggle 3 5 } 0x00E0#16
    (fun t => (t.fb.pixel 3 5, t.presents)) = some (false, 1) := by decide

/-- T5.8: one pixel cleared, one drawn over nothing. -/
theorem test_drw_collision : after { addressed 0x300#16 0#8 with
      mem := [(0x300, 0xC0#8)], fb := Frame.blank.toggle 0 1 } 0xD011#16
    (fun t => (t.fb.pixel 0 0, t.fb.pixel 0 1, t.reg vf)) = some (true, false, 1#8) := by decide

/-- T5.5: coordinates are reduced and the sprite wraps in x. -/
theorem test_drw_wraps : after { regs 0xFF#8 0xFF#8 with i := 0x300#16, mem := [(0x300, 0xC0#8)] } 0xD011#16
    (fun t => (t.fb.pixel 31 63, t.fb.pixel 31 0, t.fb.pixel 31 1, t.reg vf)) = some (true, true, false, 0#8) := by decide

/-- T5.11. -/
theorem test_drw_faults : after { addressed 0xFF2#16 0#8 with fb := Frame.blank } 0xD01F#16 faulted =
    some (.fault, 9, 0x200#16) := by decide

/-- T5.6: no rows, no memory read, no fault. -/
theorem test_drw_no_rows : after { flagAnd 1#8 0#8 with i := 0xFFFF#16 } 0xD010#16
    (fun t => (t.reg vf, t.presents, t.pc)) = some (0#8, 1, 0x202#16) := by decide

/-- T6.1, T6.2. -/
theorem test_skp : after (keyDown 0xA#4 (regs 0x1A#8 0#8)) 0xE09E#16 State.pc = some 0x204#16 ∧
    after (regs 0x0A#8 0#8) 0xE09E#16 State.pc = some 0x202#16 := by decide

/-- T6.3, T6.4. -/
theorem test_sknp : after (keyDown 0xA#4 (regs 0x0A#8 0#8)) 0xE0A1#16 State.pc = some 0x202#16 ∧
    after (regs 0x0A#8 0#8) 0xE0A1#16 State.pc = some 0x204#16 := by decide

/-- T6.7. -/
theorem test_ld_vx_k_waits : after (keyDown 5#4 State.reset) 0xF30A#16
    (fun t => (t.run, t.reqPending, t.respValid, t.waitX, t.pc)) =
    some (.waitKey, true, false, 3#4, 0x200#16) := by decide

/-- A state waiting in `LD V3,K`, as after T6.7. -/
def waiting : State :=
  { placeWord State.reset 0xF30A#16 with run := .waitKey, reqPending := true, waitX := 3#4 }

/-- T6.8 to T6.10: a key-up does not satisfy, the first key-down does, the next one does not. -/
theorem test_key_events : (keyUp 5#4 waiting).reqPending = true ∧
    (keyDown 0xA#4 waiting).respKey = 0xA#4 ∧ (keyDown 0xA#4 waiting).reqPending = false ∧
    (keyDown 3#4 (keyDown 0xA#4 waiting)).respKey = 0xA#4 := by decide

/-- T6.11. -/
theorem test_ld_vx_k_completes : (match step (keyDown 0xA#4 waiting) with
    | .next t => some (t.reg 3#4, t.respValid, t.run, t.pc)
    | .fault _ | .refused _ => none) = some (0x0A#8, false, .run, 0x202#16) := by decide

/-- T6.12. -/
theorem test_stop_while_waiting : (stopRun waiting).run = .halt ∧ (stopRun waiting).reqPending = false ∧
    (stopRun waiting).pc = 0x200#16 := by decide

/-- T7.2, T7.3, T7.8. -/
theorem test_timer_value : timerValue { val := 60#8, tSet := 5000000 } 5500000 = 31#8 ∧
    timerValue { val := 60#8, tSet := 5000000 } 5983352 = 2#8 ∧
    timerValue { val := 60#8, tSet := 5000000 } 5983353 = 1#8 ∧
    timerValue { val := 60#8, tSet := 5000000 } 6000000 = 0#8 ∧
    timerValue { val := 255#8, tSet := 0 } 4250004 = 1#8 ∧
    timerValue { val := 255#8, tSet := 0 } 4250005 = 0#8 := by decide

/-- T7.6: what a poll of the sound timer reads at the sample it takes. -/
theorem test_sound_timer_poll : timerValue (timerSet 2#8 100) 16766 = 2#8 ∧
    timerValue (timerSet 2#8 100) 16767 = 1#8 ∧ timerValue (timerSet 2#8 100) 33434 = 0#8 ∧
    (pollSt State.reset).stSeen = some 0#8 ∧ (pollSt State.reset).dtSeen = none := by decide

/-- 47_timers.md R235: a poll moves the latest sample on to the very one it reads at, so no later sample, of either
context, lies below it. -/
theorem test_poll_is_a_sample (s : State) : (pollDt s).clock = s.now ∧ (pollDt s).clock ≤ (pollDt s).now ∧
    (pollDt s).dtSeen = some (timerValue s.dt (pollDt s).clock) := ⟨rfl, Nat.le_add_right _ _, rfl⟩

/-- T7.5: never set, any clock sample. -/
theorem test_ld_vx_dt_unset : after State.reset 0xF107#16 (fun t => t.pc) = some 0x202#16 ∧
    ∀ t, timerValue State.reset.dt t = 0#8 := by
  refine ⟨by decide, fun t => ?_⟩
  simp [timerValue, State.reset]

/-- T7.1: the value set. -/
theorem test_ld_dt : after (regs 0x3C#8 0#8) 0xF015#16 (fun t => (t.dt.val, t.st.val)) =
    some (0x3C#8, 0#8) := by decide

/-- R234: the other timer. -/
theorem test_ld_st : after (regs 0x02#8 0#8) 0xF018#16 (fun t => (t.st.val, t.dt.val)) =
    some (0x02#8, 0#8) := by decide

/-- 70_reset_and_hazards.md R280, 20_memory.md R61: image, font and fill after a reset event. -/
theorem test_reset_event_loads :
    (loadedMemory [0x12#8, 0x34#8] [(0x50, 7#8), (0x101, 9#8), (0x201, 9#8), (0x202, 5#8)]).readBytes 0x200 3 =
      [0x12#8, 0x34#8, 5#8] ∧
    (loadedMemory [] [(0x50, 7#8), (0x101, 9#8)]).read 0x50 = 7#8 ∧
    (loadedMemory [] [(0x50, 7#8), (0x101, 9#8)]).read 0x101 = 0x90#8 := by decide

/-- 30_encoding.md R100 and S6: the text of the scenario, and a malformed token. -/
theorem test_text_image :
    imageOfText "0x00e0\n0xa100\r\n\n ; remark\n  0xd005\n".toList =
      some [0x00#8, 0xE0#8, 0xA1#8, 0x00#8, 0xD0#8, 0x05#8] ∧
    imageOfText "0x00e0\n0xzz\n".toList = none := by decide

/-- 60_exceptions.md R264: a malformed text changes nothing but that the engine is held; it then makes no step; a
later reset with a text that is well formed starts it. -/
theorem test_refused_load :
    hostStep (.resetText "0xzz\n".toList []) (regs 5#8 0#8) = { regs 5#8 0#8 with held := true } ∧
    step { regs 5#8 0#8 with held := true } = .next { regs 5#8 0#8 with held := true } ∧
    (hostStep (.resetText "0x00e0\n".toList []) { regs 5#8 0#8 with held := true }).held = false ∧
    (hostStep (.resetText "0x00e0\n".toList []) { regs 5#8 0#8 with held := true }).reg 0#4 = 0#8 :=
  ⟨rfl, rfl, rfl, by decide⟩

/-! Witnesses: a state and operands that meet the hypotheses of the statement named, each clause at a boundary -/

/-- The reset state with the word `w` at pc. -/
def placed (w : Word) : State := placeWord State.reset w

/-- The reset state with I = i. -/
def pointing (i : Word) : State := { State.reset with i := i }

theorem witness_DecodeOfEncode : WellFormed (.sys 0x123#12) = true ∧ WellFormed (.sys 0x0E1#12) = true ∧
    WellFormed (.drw 0xF#4 0xF#4 0xF#4) = true := by decide

theorem witness_EncodeOfDecode : decodeWord 0xD12F#16 = .ok (.drw 1#4 2#4 0xF#4) ∧
    decodeWord 0x00EE#16 = .ok .ret := by decide

/-- The last word inside memory and the first outside. -/
theorem witness_FetchInsideAndOutsideMemory :
    (∃ s : State, s.pc.toNat + 1 = 4095 ∧ s.run = .run ∧ EngineTurn s) ∧
    (∃ s : State, s.pc.toNat + 1 = 4096 ∧ s.run = .run ∧ EngineTurn s) :=
  ⟨⟨{ State.reset with pc := 0xFFE#16 }, rfl, rfl, rfl, .inl rfl⟩,
    ⟨{ State.reset with pc := 0xFFF#16 }, rfl, rfl, rfl, .inl rfl⟩⟩

theorem witness_StepRunsTheDecodedInstruction :
    (placed 0xA100#16).run = .run ∧ EngineTurn (placed 0xA100#16) ∧ (placed 0xA100#16).pc.toNat + 1 ≤ 4095 ∧
    decodeBytes [(placed 0xA100#16).mem.read (placed 0xA100#16).pc.toNat,
      (placed 0xA100#16).mem.read ((placed 0xA100#16).pc.toNat + 1)] = .ok (.ldI 0x100#12, []) :=
  ⟨by decide, ⟨rfl, .inl rfl⟩, by decide, by decide⟩

theorem witness_IllegalWordFaults :
    (placed 0x5001#16).run = .run ∧ EngineTurn (placed 0x5001#16) ∧
    fetch (placed 0x5001#16) = some 0x5001#16 ∧ decodeWord 0x5001#16 = .error (.illegal 0x5001#16) :=
  ⟨by decide, ⟨rfl, .inl rfl⟩, by decide, by decide⟩

/-- Held, HALT, FAULT, and waiting with no key handed off, the engine's turn listed or not. -/
theorem witness_EngineWithoutAStepIdles :
    EngineNext { State.reset with held := true } ∧ EngineNext { State.reset with run := .halt } ∧
    EngineNext { State.reset with run := .fault, turns := [.engine] } ∧
    EngineNext waiting ∧ waiting.run = .waitKey ∧ waiting.respValid = false :=
  ⟨.inl rfl, .inl rfl, .inr rfl, .inl rfl, by decide, by decide⟩

/-- The run state after a step, where there is one. -/
def runAfter (s : State) : Option RunState :=
  match step s with
  | .next t => some t.run
  | .fault _ | .refused _ => none

/-- One step into each run state, and one that stays in HALT. -/
theorem witness_RunStateTransitions :
    runAfter (placed 0xF30A#16) = some .waitKey ∧ runAfter (placed 0x5001#16) = some .fault ∧
    runAfter (keyDown 5#4 waiting) = some .run ∧ runAfter { State.reset with turns := [.host .stop] } = some .halt ∧
    runAfter { State.reset with run := .halt } = some .halt := by decide

/-- A fetch fault, a decode fault, an overflow and a store outside memory. -/
theorem witness_FaultEntryIsPrecise :
    runAfter { State.reset with pc := 0xFFF#16 } = some .fault ∧
    runAfter (placed 0x5001#16) = some .fault ∧ runAfter { placed 0x2300#16 with sp := 16 } = some .fault ∧
    runAfter { placed 0xF155#16 with i := 0xFFF#16 } = some .fault := by decide

/-- Each row of the fault table at its boundary, on both sides. -/
theorem witness_InstructionsFaultExactlyWhenListed :
    faultOf (.call 0#12) { State.reset with sp := 16 } = some .stackOverflow ∧
    faultOf (.call 0#12) { State.reset with sp := 15 } = none ∧
    faultOf .ret State.reset = some .stackUnderflow ∧ faultOf .ret { State.reset with sp := 1 } = none ∧
    faultOf (.ldB 0#4) (pointing 0xFFE#16) = some .addrBcd ∧ faultOf (.ldB 0#4) (pointing 0xFFD#16) = none ∧
    faultOf (.storeRegs 1#4) (pointing 0xFFF#16) = some .addrStore ∧
    faultOf (.storeRegs 1#4) (pointing 0xFFE#16) = none ∧
    faultOf (.loadRegs 1#4) (pointing 0xFFF#16) = some .addrLoad ∧
    faultOf (.loadRegs 1#4) (pointing 0xFFE#16) = none ∧
    faultOf (.drw 0#4 1#4 2#4) (pointing 0xFFF#16) = some .addrSprite ∧
    faultOf (.drw 0#4 1#4 1#4) (pointing 0xFFF#16) = none ∧
    faultOf (.drw 0#4 1#4 0#4) (pointing 0xFFFF#16) = none := by decide

/-- An image one byte too long and a malformed text are refused; an image that just fits is not. -/
theorem witness_EveryStepAnswers :
    LoadRefused (.reset (List.replicate 3585 0#8) []) ∧ LoadRefused (.resetText "0xzz".toList []) ∧
    (List.replicate 3584 0#8).length ≤ 3584 :=
  ⟨.inl ⟨_, _, .inl rfl, Nat.le_of_eq List.length_replicate.symm⟩, .inr ⟨_, _, rfl, rfl⟩,
    Nat.le_of_eq List.length_replicate⟩

/-- For TimerInstructions: a poll of either timer as the next turn. -/
theorem witness_polls : ({ State.reset with turns := [.host .pollDt] } : State).turns = .host .pollDt :: [] ∧
    ({ State.reset with turns := [.host .pollSt] } : State).turns = .host .pollSt :: [] := by decide

theorem witness_SysOnlyAdvances : (0x123#12 : BitVec 12) ≠ 0x0E0#12 ∧ (0x123#12 : BitVec 12) ≠ 0x0EE#12 := by
  decide

/-- The last entry free, and none free. -/
theorem witness_CallPushesOrOverflows : ({ State.reset with sp := 15 } : State).sp.val < 16 ∧
    ({ State.reset with sp := 16 } : State).sp.val = 16 := by decide

/-- One entry in use, all in use, none in use. -/
theorem witness_RetPopsOrUnderflows : ({ State.reset with sp := 1 } : State).sp.val ≠ 0 ∧
    ({ State.reset with sp := 16 } : State).sp.val ≠ 0 ∧ State.reset.sp.val = 0 := by decide

/-- Sixteen calls from an empty stack, and none on a full one. -/
theorem witness_NestedCallsReturn :
    State.reset.sp.val + (List.replicate 16 (0x300#12 : BitVec 12)).length ≤ 16 ∧
    ({ State.reset with sp := 16 } : State).sp.val + ([] : List (BitVec 12)).length ≤ 16 := by decide

/-- For AddWithCarryOut, SubtractWithNoBorrow, ShiftsByOne: a destination that is not VF. -/
theorem witness_destination_not_vf : (0xE#4 : Reg) ≠ vf ∧ (0#4 : Reg) ≠ vf := by decide

theorem witness_OnlySixInstructionsWriteTheFlag :
    writesFlag (.addReg 0#4 1#4) = true ∧ faultOf (.addReg 0#4 1#4) State.reset = none ∧
    writesFlag (.addImm 0xE#4 1#8) = false ∧ vf ∉ destinations (.addImm 0xE#4 1#8) ∧
    vf ∉ destinations (.loadRegs 0xE#4) ∧
    (∃ t, exec (.addReg 0#4 1#4) State.reset = .next t) ∧ ∃ t, exec (.addImm 0xE#4 1#8) State.reset = .next t :=
  ⟨rfl, rfl, rfl, by decide, by decide, ⟨_, rfl⟩, ⟨_, rfl⟩⟩

/-- The last place the digits fit, and the first they do not. -/
theorem witness_BcdStoresThreeDigits : (pointing 0xFFD#16).i.toNat + 2 = 4095 ∧
    (pointing 0xFFD#16).mem.wf = true ∧ (pointing 0xFFE#16).i.toNat + 2 = 4096 := by decide

/-- For BlockStore and BlockLoad: the last place V0..V15 fit, and the first they do not. -/
theorem witness_block_transfers : (pointing 0xFF0#16).i.toNat + (0xF#4 : Reg).toNat = 4095 ∧
    (pointing 0xFF0#16).mem.wf = true ∧ (pointing 0xFF1#16).i.toNat + (0xF#4 : Reg).toNat = 4096 := by decide

/-- For LoadAfterStoreRestores and StoredBytesAreFetched: a store of V0, V1 into the last two bytes. -/
theorem witness_store_then_read : (pointing 0xFFE#16).mem.wf = true ∧
    (pointing 0xFFE#16).i.toNat + (1#4 : Reg).toNat ≤ 4095 ∧ (0#4 : Reg).toNat + 1 ≤ (1#4 : Reg).toNat ∧
    ∃ t u, exec (.storeRegs 1#4) (pointing 0xFFE#16) = .next t ∧ u = t.setReg 0#4 7#8 ∧ u.mem = t.mem ∧ u.i = t.i :=
  ⟨by decide, by decide, by decide, _, _, rfl, rfl, rfl, rfl⟩

/-- A cell listed by a write, beside the literal list. -/
theorem witness_CanonicalMemoriesReadingAlikeAreEqual :
    Memory.wf [(0xFFF, 1#8)] = true ∧ (Memory.write [] 0xFFF 1#8).wf = true ∧
    ∀ a, a < 4096 → Memory.read [(0xFFF, 1#8)] a = (Memory.write [] 0xFFF 1#8).read a :=
  ⟨by decide, by decide, fun _ _ => rfl⟩

/-- For OtherInstructionsIgnoreMemory, FramebufferIsReadByDrawAlone, StackAndSoundTimerAreNotRead. -/
theorem witness_what_is_not_read :
    reachesMemory (.ldI 0#12) = false ∧ (∀ x y n, Instr.ldI 0#12 ≠ .drw x y n) ∧
    (∀ nnn, Instr.ldI 0#12 ≠ .call nnn) ∧ Instr.ldI 0#12 ≠ .ret ∧ (∀ x, Instr.ldI 0#12 ≠ .ldStVx x) ∧
    ∃ t, exec (.ldI 0#12) State.reset = .next t :=
  ⟨rfl, by simp, by simp, by simp, by simp, _, rfl⟩

/-- The last sprite byte at 0xFFF, none read at all, and one at 0x1000; a pixel the sprite lights. -/
theorem witness_DrawFlipsTheSpritePixels :
    (pointing 0xFF1#16).i.toNat + (0xF#4 : BitVec 4).toNat - 1 = 4095 ∧ (0#4 : BitVec 4).toNat = 0 ∧
    (pointing 0xFF2#16).i.toNat + (0xF#4 : BitVec 4).toNat - 1 = 4096 ∧
    SpriteLights (pointing 0x100#16) 0#4 1#4 5#4 0 0 :=
  ⟨by decide, by decide, by decide, 0, by decide, by decide, 0, by decide, by decide, by decide⟩

/-- Drawn at (V0, V1) = (0, 0), so the flag changes neither coordinate. -/
theorem witness_DrawingTwiceRestores :
    faultOf (.drw 0#4 1#4 5#4) (pointing 0x100#16) = none ∧
    ∃ t, exec (.drw 0#4 1#4 5#4) (pointing 0x100#16) = .next t ∧
      t.reg 0#4 = (pointing 0x100#16).reg 0#4 ∧ t.reg 1#4 = (pointing 0x100#16).reg 1#4 :=
  ⟨by decide, _, rfl, by decide, by decide⟩

/-- A key-down with a request pending and without one, and a key-up. -/
theorem witness_KeyEvents :
    ({ waiting with turns := [.host (.keyDown 0xF#4)] } : State).reqPending = true ∧
    ({ State.reset with turns := [.host (.keyDown 0#4)] } : State).reqPending = false ∧
    ({ State.reset with turns := [.host (.keyUp 0#4)] } : State).turns = .host (.keyUp 0#4) :: [] := by decide

/-- The low nibble of 0x1F selects key 15. -/
theorem witness_SkipsOnKey : ((regs 0x1F#8 0#8).reg 0#4).toNat % 16 = (0xF#4 : Key).toNat := by decide

theorem witness_BlockingReadInTwoPhases :
    (keyDown 0xA#4 waiting).run = .waitKey ∧ (keyDown 0xA#4 waiting).respValid = true ∧
    EngineTurn (keyDown 0xA#4 waiting) := ⟨by decide, by decide, rfl, .inl rfl⟩

/-- A key-up, the key-down that counts, another, then the engine; and no event around the key-down. -/
theorem witness_FirstKeyDownCompletesTheRead :
    [HostEvent.keyUp 1#4].all isKeyUp = true ∧ [HostEvent.keyDown 3#4].all isKeyEvent = true ∧
    waiting.held = false ∧ waiting.run = .waitKey ∧ waiting.reqPending = true ∧ waiting.respValid = false ∧ waiting.waitX = 3#4 ∧
    ({ waiting with turns := [.host (.keyUp 1#4), .host (.keyDown 0xA#4), .host (.keyDown 3#4), .engine] } :
      State).turns =
      [HostEvent.keyUp 1#4].map Turn.host ++ [Turn.host (.keyDown 0xA#4)] ++
        [HostEvent.keyDown 3#4].map Turn.host ++ [Turn.engine] ++ [] := by decide

/-- Running, waiting, halted, faulted. -/
theorem witness_StopHaltsAndClearsTheChannel :
    ({ State.reset with turns := [.host .stop] } : State).run = .run ∧
    ({ waiting with turns := [.host .stop] } : State).run = .waitKey ∧
    ({ State.reset with turns := [.host .stop], run := .halt } : State).run = .halt ∧
    ({ State.reset with turns := [.host .stop], run := .fault } : State).run = .fault := by decide

/-- For TimerValueFormula and TimerNeverRises: the instant of the set, and the last microsecond before 0. -/
theorem witness_timer_values : (timerSet 60#8 5000000).tSet ≤ 5000000 ∧ (5000000 : Nat) ≤ 5999999 ∧
    timerValue (timerSet 60#8 5000000) 5999999 = 1#8 ∧ timerValue (timerSet 60#8 5000000) 6000000 = 0#8 := by
  decide

theorem witness_SecondDelayReadIsNotAbove :
    ∃ t w, exec (.ldVxDt 0#4) State.reset = .next t ∧ t.dt = t.dt ∧ t.clock ≤ t.clock ∧
      exec (.ldVxDt 1#4) t = .next w := ⟨_, _, rfl, rfl, Nat.le_refl _, rfl⟩

/-- For the four frames: one instruction of each family, with no fault, at a boundary where it has one. -/
theorem witness_frames :
    familyOf (.call 0#12) = .control ∧ faultOf (.call 0#12) { State.reset with sp := 15 } = none ∧
    familyOf (.sys 0#12) = .noop ∧ familyOf (.shl 0#4 0#4) = .register ∧
    familyOf (.storeRegs 0xF#4) = .addressing ∧ faultOf (.storeRegs 0xF#4) (pointing 0xFF0#16) = none ∧
    familyOf (.rnd 0#4 0#8) = .random ∧ familyOf (.drw 0#4 0#4 0xF#4) = .drawing ∧
    faultOf (.drw 0#4 0#4 0xF#4) (pointing 0xFF1#16) = none ∧
    familyOf (.ldVxK 0#4) = .input ∧ familyOf (.ldDtVx 0#4) = .timers := by decide

/-- An empty image and one of the full length, with cells of the fill in and out of the font. -/
theorem witness_ResetEventRestartsTheMachine :
    ([] : List Byte).length ≤ 3584 ∧ (List.replicate 3584 0#8).length ≤ 3584 ∧
    Carries (.resetText "0x00e0".toList [(0x50, 7#8)]) [0x00#8, 0xE0#8] [(0x50, 7#8)] ∧
    Carries (.reset [] []) [] [] ∧
    (([(0x50, 7#8), (0x101, 9#8), (0xFFF, 1#8)] : List Host.Cell).map Prod.fst).Nodup :=
  ⟨by decide, Nat.le_of_eq (List.length_replicate ..), .inr ⟨_, rfl, rfl⟩, .inl rfl, by decide⟩

/-- A running state and a waiting one that meet the invariant, and step. -/
theorem witness_EveryStepKeepsTheInvariant :
    (placed 0xF30A#16).Inv ∧ waiting.Inv ∧ runAfter (placed 0xF30A#16) = some .waitKey ∧
    runAfter { waiting with turns := [.host (.keyDown 1#4)] } = some .waitKey := by decide

theorem witness_JumpToSelfChangesNothingEver :
    (placed 0x1200#16).run = .run ∧ ChannelInv (placed 0x1200#16) ∧ fetch (placed 0x1200#16) = some 0x1200#16 ∧
    decodeWord 0x1200#16 = .ok (.jp 0x200#12) ∧ (0x200#12 : BitVec 12).toNat = (placed 0x1200#16).pc.toNat ∧
    noReset [.engine, .host (.keyDown 1#4), .host .pollDt, .host .stop] = true := by decide

theorem witness_EndedRunStaysEnded :
    runEnded { State.reset with run := .halt } = true ∧ ChannelInv { State.reset with run := .halt } ∧
    runEnded { State.reset with run := .fault } = true ∧ ChannelInv { State.reset with run := .fault } ∧
    noReset [.host .stop, .host (.keyUp 1#4), .host .pollSt, .engine] = true := by decide

end Sys2Proof.Tests
end

section
/-! SUPPORT. Frame rules: what each operation of the state leaves unchanged, and from them what each
instruction that raises no fault leaves unchanged (30_encoding.md R95, column "Writes"). -/

namespace Sys2Proof.Machine

section
variable {rs : List Reg} {ps : List Part} {s t : State}

theorem KeepsBut.refl (s : State) : KeepsBut rs ps s s := by simp [KeepsBut]

theorem KeepsBut.advance (h : KeepsBut rs ps s t) : KeepsBut rs (.pc :: ps) s t.advance := by
  simp_all [KeepsBut]

theorem KeepsBut.skipIf (h : KeepsBut rs ps s t) (c : Bool) : KeepsBut rs (.pc :: ps) s (t.skipIf c) := by
  simp_all [KeepsBut]

theorem KeepsBut.jump (h : KeepsBut rs ps s t) (a : Word) : KeepsBut rs (.pc :: ps) s (t.jump a) := by
  simp_all [KeepsBut]

theorem KeepsBut.setReg (h : KeepsBut rs ps s t) (x : Reg) (b : Byte) :
    KeepsBut (x :: rs) ps s (t.setReg x b) := by
  simp_all [KeepsBut]

theorem KeepsBut.setResultAndFlag (h : KeepsBut rs ps s t) (x : Reg) (b : Byte) (f : Bool) :
    KeepsBut (x :: vf :: rs) ps s (t.setResultAndFlag x b f) := by
  simp_all [KeepsBut]

theorem KeepsBut.setFlag (h : KeepsBut rs ps s t) (f : Bool) : KeepsBut (vf :: rs) ps s (t.setFlag f) :=
  h.setReg vf _

theorem KeepsBut.present (h : KeepsBut rs ps s t) : KeepsBut rs (ps ++ [.presents]) s t.present := by
  simp_all [KeepsBut]

theorem KeepsBut.push {ret : Word} (h : s.push ret = some t) : KeepsBut rs [.stack] s t := by
  unfold State.push at h
  split at h
  · cases h
    simp [KeepsBut, State.reg]
  · cases h

theorem KeepsBut.popToPc (h : s.popToPc = some t) : KeepsBut rs [.pc, .stack] s t := by
  unfold State.popToPc at h
  split at h
  · cases h
    simp [KeepsBut, State.reg]
  · cases h

theorem KeepsBut.reg (h : KeepsBut rs ps s t) {r : Reg} (hr : r ∉ rs) : t.reg r = s.reg r := h.1 r hr

theorem KeepsBut.dt (h : KeepsBut rs ps s t) (hp : Part.dt ∉ ps) : t.dt = s.dt := by
  obtain ⟨-, -, -, -, -, hdt, -⟩ := h
  exact hdt hp

theorem KeepsBut.st (h : KeepsBut rs ps s t) (hp : Part.st ∉ ps) : t.st = s.st := by
  obtain ⟨-, -, -, -, -, -, hst, -⟩ := h
  exact hst hp

theorem KeepsBut.channel (h : KeepsBut rs ps s t) (hp : Part.channel ∉ ps) :
    t.reqPending = s.reqPending ∧ t.respValid = s.respValid ∧ t.respKey = s.respKey ∧ t.waitX = s.waitX := by
  obtain ⟨-, -, -, -, -, -, -, -, hchannel, -⟩ := h
  exact hchannel hp

theorem KeepsBut.run (h : KeepsBut rs ps s t) (hp : Part.run ∉ ps) : t.run = s.run := by
  obtain ⟨-, -, -, -, -, -, -, -, -, -, hrun, -⟩ := h
  exact hrun hp

theorem KeepsBut.clock (h : KeepsBut rs ps s t) (hp : Part.clock ∉ ps) :
    t.clock = s.clock ∧ t.clockDraws = s.clockDraws := by
  obtain ⟨-, -, -, -, -, -, -, -, -, -, -, -, hclock, -⟩ := h
  exact hclock hp
end

/-! The instructions that check before they act, where the check passes -/

theorem exec_call_of_faultOf_none {nnn : BitVec 12} {s : State} (h : faultOf (.call nnn) s = none) :
    ∃ t, s.push (s.pc + 2#16) = some t ∧ exec (.call nnn) s = .next (t.jump (zextAddr nnn)) := by
  have hfull : s.sp.val ≠ 16 := by simpa [faultOf] using h
  have hpush := s.push_of_lt (s.pc + 2#16) (by have := s.sp.isLt; omega)
  have hnnn := nnn.isLt
  refine ⟨_, hpush, ?_⟩
  simp only [exec, execCall, hpush]
  exact if_neg (by omega)

theorem exec_ret_of_faultOf_none {s : State} (h : faultOf .ret s = none) :
    ∃ t, s.popToPc = some t ∧ exec .ret s = .next t := by
  have hempty : s.sp.val ≠ 0 := by simpa [faultOf] using h
  obtain ⟨t, ht, -⟩ := s.popToPc_of_pos (Nat.pos_of_ne_zero hempty)
  exact ⟨t, ht, by simp only [exec, execRet, ht]⟩

theorem exec_ldB_of_faultOf_none {x : Reg} {s : State} (h : faultOf (.ldB x) s = none) :
    exec (.ldB x) s = .next { s with mem := s.mem.writeBytes (s.atI 0) (bcdDigits (s.reg x)) }.advance := by
  have hb : ¬s.beyondMemory 2 = true := by simpa [faultOf, State.beyondMemory_iff] using h
  exact if_neg hb

theorem exec_storeRegs_of_faultOf_none {x : Reg} {s : State} (h : faultOf (.storeRegs x) s = none) :
    exec (.storeRegs x) s = .next { s with mem := s.mem.writeBytes (s.atI 0) (s.regsUpTo x) }.advance := by
  have hb : ¬s.beyondMemory x.toNat = true := by simpa [faultOf, State.beyondMemory_iff] using h
  exact if_neg hb

theorem exec_loadRegs_of_faultOf_none {x : Reg} {s : State} (h : faultOf (.loadRegs x) s = none) :
    exec (.loadRegs x) s = .next { s with v := regsLoaded x s }.advance := by
  have hb : ¬s.beyondMemory x.toNat = true := by simpa [faultOf, State.beyondMemory_iff] using h
  exact if_neg hb

theorem drw_outOfMemory_iff (n : BitVec 4) (s : State) :
    (n.toNat > 0 && s.beyondMemory (n.toNat - 1)) = true ↔ n.toNat > 0 ∧ s.i.toNat + n.toNat - 1 > 4095 := by
  simp only [Bool.and_eq_true, decide_eq_true_eq, State.beyondMemory_iff]
  omega

theorem exec_drw_of_faultOf_none {x y : Reg} {n : BitVec 4} {s : State} (h : faultOf (.drw x y n) s = none) :
    exec (.drw x y n) s = .next ({ s with fb := (spriteBlit x y n s).fb }.setFlag
      (spriteBlit x y n s).collision).present.advance := by
  have hb : ¬(n.toNat > 0 && s.beyondMemory (n.toNat - 1)) = true := by
    rw [drw_outOfMemory_iff]
    simpa [faultOf] using h
  exact if_neg hb

/-- An instruction whose check fails raises the fault of 60_exceptions.md R251 and does nothing else. -/
theorem exec_of_faultOf_some {i : Instr} {s : State} {c : FaultCode} (h : faultOf i s = some c) :
    ∃ word addr, exec i s = raise c word addr s := by
  cases i with
  | call nnn =>
    obtain ⟨hsp, rfl⟩ : s.sp.val = 16 ∧ .stackOverflow = c := by simpa [faultOf] using h
    exact ⟨_, none, by simp only [exec, execCall, s.push_full _ hsp]; rfl⟩
  | ret =>
    obtain ⟨hsp, rfl⟩ : s.sp.val = 0 ∧ .stackUnderflow = c := by simpa [faultOf] using h
    exact ⟨_, none, by simp only [exec, execRet, s.popToPc_empty hsp]; rfl⟩
  | ldB x =>
    obtain ⟨hb, rfl⟩ : s.i.toNat + 2 > 4095 ∧ .addrBcd = c := by simpa [faultOf] using h
    exact ⟨_, _, if_pos ((s.beyondMemory_iff 2).mpr hb)⟩
  | storeRegs x =>
    obtain ⟨hb, rfl⟩ : s.i.toNat + x.toNat > 4095 ∧ .addrStore = c := by simpa [faultOf] using h
    exact ⟨_, _, if_pos ((s.beyondMemory_iff _).mpr hb)⟩
  | loadRegs x =>
    obtain ⟨hb, rfl⟩ : s.i.toNat + x.toNat > 4095 ∧ .addrLoad = c := by simpa [faultOf] using h
    exact ⟨_, _, if_pos ((s.beyondMemory_iff _).mpr hb)⟩
  | drw x y n =>
    obtain ⟨hb, hc⟩ := Option.ite_none_right_eq_some.mp h
    cases hc
    exact ⟨_, _, if_pos ((drw_outOfMemory_iff n s).mpr hb)⟩
  | _ => cases h

theorem faultOf_ne_noFault (i : Instr) (s : State) : faultOf i s ≠ some .noFault := by
  cases i with
  | call nnn => simp [faultOf]
  | ret => simp [faultOf]
  | ldB x => simp [faultOf]
  | storeRegs x => simp [faultOf]
  | loadRegs x => simp [faultOf]
  | drw x y n => simp [faultOf]
  | _ => exact nofun

/-! What an instruction keeps -/

theorem mem_destinations_loadRegs {x r : Reg} : r ∈ destinations (.loadRegs x) ↔ r.toNat ≤ x.toNat := by
  have hx := x.isLt
  simp only [destinations, List.mem_map, List.mem_range]
  constructor
  · rintro ⟨k, hk, rfl⟩
    simp only [BitVec.toNat_ofNat]
    omega
  · exact fun h => ⟨r.toNat, by omega, by simp⟩

theorem keepsBut_regsLoaded (x : Reg) (s : State) :
    KeepsBut (destinations (.loadRegs x)) [] s { s with v := regsLoaded x s } := by
  refine ⟨fun r hr => ?_, by simp⟩
  rw [reg_regsLoaded, if_neg (mt mem_destinations_loadRegs.mpr hr)]

/-- An instruction that raises no fault keeps every register but its destinations, and every part of the state
but those it is listed to write. -/
theorem exec_frame {i : Instr} {s t : State} (h : exec i s = .next t) (hf : faultOf i s = none) :
    KeepsBut (destinations i) (partsWritten i) s t := by
  cases i with
  | sys _ => cases h; exact (KeepsBut.refl s).advance
  | seImm _ _ | sneImm _ _ | seReg _ _ | sneReg _ _ | skp _ | sknp _ =>
    cases h
    exact (KeepsBut.refl s).skipIf _
  | jpV0 _ => cases h; exact (KeepsBut.refl s).jump _
  | ldImm _ _ | addImm _ _ | ldReg _ _ | orReg _ _ | andReg _ _ | xorReg _ _ =>
    cases h
    exact ((KeepsBut.refl s).setReg _ _).advance
  | addReg _ _ | sub _ _ | shr _ _ | subn _ _ | shl _ _ =>
    cases h
    exact ((KeepsBut.refl s).setResultAndFlag _ _ _).advance
  | rnd _ _ | ldVxDt _ =>
    cases h
    exact (KeepsBut.setReg (by simp [KeepsBut]) _ _).advance
  | cls | ldI _ | addI _ | ldF _ | ldDtVx _ | ldStVx _ =>
    cases h
    exact KeepsBut.advance (by simp [KeepsBut, State.reg])
  | ldVxK _ => cases h; simp [KeepsBut, partsWritten, State.reg]
  | jp nnn =>
    simp only [exec, execJp] at h
    split_ifs at h <;> cases h
    · simp [KeepsBut, partsWritten, State.reg]
    · exact (KeepsBut.refl s).jump _
    · exact (KeepsBut.refl s).jump _
  | call nnn =>
    obtain ⟨u, hu, he⟩ := exec_call_of_faultOf_none hf
    cases he.symm.trans h
    exact (KeepsBut.push hu).jump _
  | ret =>
    obtain ⟨u, hu, he⟩ := exec_ret_of_faultOf_none hf
    cases he.symm.trans h
    exact .popToPc hu
  | ldB x =>
    cases (exec_ldB_of_faultOf_none hf).symm.trans h
    exact KeepsBut.advance (by simp [KeepsBut, State.reg])
  | storeRegs x =>
    cases (exec_storeRegs_of_faultOf_none hf).symm.trans h
    exact KeepsBut.advance (by simp [KeepsBut, State.reg])
  | loadRegs x =>
    cases (exec_loadRegs_of_faultOf_none hf).symm.trans h
    exact (keepsBut_regsLoaded x s).advance
  | drw x y n =>
    cases (exec_drw_of_faultOf_none hf).symm.trans h
    have hfb : KeepsBut [] [.fb] s { s with fb := (spriteBlit x y n s).fb } := by simp [KeepsBut, State.reg]
    exact (hfb.setFlag _).present.advance

end Sys2Proof.Machine
end

section
/-! SUPPORT. Parts of the state that only a few instructions reach: with another value in such a part, every
other instruction does the same and hands that value on. -/

namespace Sys2Proof.Machine

/-- Another value for a part of the state that few instructions reach: memory (20_memory.md R68), the stack
(10_state.md R25), the sound timer (47_timers.md R236), the framebuffer (10_state.md R29). -/
inductive Overlay where
  | mem (m : Memory)
  | stack (k : Vector Word 16) (p : Fin 17)
  | st (T : Timer)
  | fb (f : Frame)

/-- The state with that value in place. -/
def Overlay.put (o : Overlay) (s : State) : State :=
  match o with
  | .mem m => { s with mem := m }
  | .stack k p => { s with stack := k, sp := p }
  | .st T => { s with st := T }
  | .fb f => { s with fb := f }

/-- The instructions that read or write the part. -/
def Overlay.reachedBy (o : Overlay) (i : Instr) : Prop :=
  match o with
  | .mem _ => reachesMemory i = true
  | .stack _ _ => (∃ nnn, i = .call nnn) ∨ i = .ret
  | .st _ => ∃ x, i = .ldStVx x
  | .fb _ => i = .cls ∨ ∃ x y n, i = .drw x y n

/-- The outcome with `u` applied to the next state. -/
def mapNext (u : State → State) (r : Result) : Result :=
  match r with
  | .next s => .next (u s)
  | .fault e => .fault e
  | .refused e => .refused e

namespace Overlay

variable (o : Overlay) (s : State)

@[simp] theorem put_pc : (o.put s).pc = s.pc := by cases o <;> rfl

@[simp] theorem put_beyondMemory (last : Nat) : (o.put s).beyondMemory last = s.beyondMemory last := by
  cases o <;> rfl

theorem raise_put (code : FaultCode) (word addr : Option Word) :
    raise code word addr (o.put s) = mapNext o.put (raise code word addr s) := by cases o <;> rfl

variable {o}

theorem push_put {nnn : BitVec 12} (h : ¬o.reachedBy (.call nnn)) (ret : Word) :
    (o.put s).push ret = (s.push ret).map o.put := by
  cases o with
  | stack k p => exact absurd (.inl ⟨nnn, rfl⟩) h
  | _ => by_cases hs : s.sp.val < Config.stackDepth <;> simp [State.push, put, hs]

theorem popToPc_put (h : ¬o.reachedBy .ret) : (o.put s).popToPc = s.popToPc.map o.put := by
  cases o with
  | stack k p => exact absurd (.inr rfl) h
  | _ => by_cases hs : 0 < s.sp.val <;> simp [State.popToPc, put, hs]

end Overlay

/-- An instruction that does not reach the part does the same whatever is in it, and hands it on. -/
theorem exec_put {o : Overlay} {i : Instr} (h : ¬o.reachedBy i) (s : State) :
    exec i (o.put s) = mapNext o.put (exec i s) := by
  cases i with
  | jp nnn =>
    simp only [exec, execJp, Overlay.put_pc]
    split_ifs <;> cases o <;> rfl
  | ret =>
    simp only [exec, execRet, Overlay.popToPc_put s h]
    cases s.popToPc with
    | none => exact o.raise_put s _ _ _
    | some t => rfl
  | call nnn =>
    simp only [exec, execCall, Overlay.put_pc, Overlay.push_put s h]
    cases s.push (s.pc + 2#16) with
    | none => exact o.raise_put s _ _ _
    | some t =>
      simp only [Option.map_some]
      split_ifs <;> cases o <;> rfl
  | cls =>
    cases o with
    | fb f => exact absurd (.inl rfl) h
    | _ => rfl
  | ldStVx x =>
    cases o with
    | st T => exact absurd ⟨x, rfl⟩ h
    | _ => rfl
  | ldB x =>
    simp only [exec, execLdB, Overlay.put_beyondMemory]
    cases o with
    | mem m => exact absurd rfl h
    | _ => split_ifs <;> rfl
  | storeRegs x =>
    simp only [exec, execStoreRegs, Overlay.put_beyondMemory]
    cases o with
    | mem m => exact absurd rfl h
    | _ => split_ifs <;> rfl
  | loadRegs x =>
    simp only [exec, execLoadRegs, Overlay.put_beyondMemory]
    cases o with
    | mem m => exact absurd rfl h
    | _ => split_ifs <;> rfl
  | drw x y n =>
    simp only [exec, execDrw, Overlay.put_beyondMemory]
    cases o with
    | mem m => exact absurd rfl h
    | fb f => exact absurd (.inr ⟨x, y, n, rfl⟩) h
    | _ => split_ifs <;> rfl
  | _ => cases o <;> rfl

theorem exec_put_of_next {o : Overlay} {i : Instr} {s t : State} (h : ¬o.reachedBy i) (he : exec i s = .next t) :
    exec i (o.put s) = .next (o.put t) := by
  rw [exec_put h, he]
  rfl

/-- An instruction that does not reach memory hands the very list on. -/
theorem exec_mem_eq {i : Instr} {s t : State} (h : reachesMemory i = false) (he : exec i s = .next t) :
    t.mem = s.mem := by
  have hput : exec i s = .next ((Overlay.mem s.mem).put t) :=
    exec_put_of_next (o := .mem s.mem) (by simp [Overlay.reachedBy, h]) he
  have ht : t = (Overlay.mem s.mem).put t := Host.Outcome.next.inj (he.symm.trans hput)
  have hmem : t.mem = ((Overlay.mem s.mem).put t).mem := congrArg State.mem ht
  exact hmem

/-- Settles O40: but for DRW and CLS no instruction reaches the framebuffer, and CLS overwrites it. -/
theorem framebufferIsReadByDrawAlone : Obligations.FramebufferIsReadByDrawAlone := by
  unfold Obligations.FramebufferIsReadByDrawAlone
  intro i s t f hdrw he
  by_cases hcls : i = .cls
  · subst hcls
    cases he
    exact ⟨Frame.blank, rfl, absurd rfl⟩
  · have hfb : ¬(Overlay.fb f).reachedBy i := by
      rintro (h | ⟨x, y, n, h⟩)
      · exact hcls h
      · exact hdrw x y n h
    exact ⟨f, exec_put_of_next hfb he, fun _ => rfl⟩

/-- Settles O41, by the two parts not being reached. -/
theorem stackAndSoundTimerAreNotRead : Obligations.StackAndSoundTimerAreNotRead := by
  unfold Obligations.StackAndSoundTimerAreNotRead
  intro i s t k p T he
  constructor
  · intro hcall hret
    have hstack : ¬(Overlay.stack k p).reachedBy i := by
      rintro (⟨nnn, h⟩ | h)
      · exact hcall nnn h
      · exact hret h
    exact exec_put_of_next hstack he
  · intro hld
    have hst : ¬(Overlay.st T).reachedBy i := fun ⟨x, h⟩ => hld x h
    exact exec_put_of_next hst he

end Sys2Proof.Machine
end

section
/-! SUPPORT. The canonical form of memory is unique. -/

namespace Sys2Proof.Machine

theorem Memory.wfFrom_cons {lo k : Nat} {b : Byte} {rest : Memory} :
    Memory.wfFrom lo ((k, b) :: rest) = true ↔
      lo ≤ k ∧ k < Config.memSize ∧ b ≠ unlisted k ∧ Memory.wfFrom (k + 1) rest = true := by
  simp only [Memory.wfFrom, Bool.and_eq_true, decide_eq_true_eq, bne_iff_ne, and_assoc]

@[simp] theorem Memory.read_cons_self (k : Nat) (b : Byte) (rest : Memory) : Memory.read ((k, b) :: rest) k = b :=
  if_pos rfl

theorem Memory.read_cons_of_ne {k a : Nat} (h : k ≠ a) (b : Byte) (rest : Memory) :
    Memory.read ((k, b) :: rest) a = rest.read a := if_neg h

/-- A canonical list that reads other than an unlisted address has its first cell at or below. -/
theorem Memory.head_le_of_read_ne {lo k a : Nat} {b : Byte} {rest : Memory}
    (h : Memory.wfFrom lo ((k, b) :: rest) = true) (ha : Memory.read ((k, b) :: rest) a ≠ unlisted a) : k ≤ a := by
  obtain ⟨-, hk, hb, hrest⟩ := Memory.wfFrom_cons.mp h
  have hfrom : Memory.wfFrom k ((k, b) :: rest) = true := Memory.wfFrom_cons.mpr ⟨le_rfl, hk, hb, hrest⟩
  exact Nat.le_of_not_lt fun hlt => ha (Memory.read_of_wfFrom_lt hfrom hlt)

/-- Two canonical lists from `lo` on that read alike from `lo` on are equal. -/
theorem Memory.eq_of_read_eq {m n : Memory} {lo : Nat} (hm : Memory.wfFrom lo m = true)
    (hn : Memory.wfFrom lo n = true) (h : ∀ a, lo ≤ a → a < Config.memSize → m.read a = n.read a) : m = n := by
  induction m generalizing lo n with
  | nil =>
    cases n with
    | nil => rfl
    | cons cell n =>
      obtain ⟨k, b⟩ := cell
      obtain ⟨hlo, hk, hb, -⟩ := Memory.wfFrom_cons.mp hn
      exact absurd ((h k hlo hk).trans (read_cons_self k b n)).symm hb
  | cons cell m ih =>
    obtain ⟨k, b⟩ := cell
    obtain ⟨hlo, hk, hb, hm'⟩ := Memory.wfFrom_cons.mp hm
    cases n with
    | nil => exact absurd ((read_cons_self k b m).symm.trans (h k hlo hk)) hb
    | cons cell n =>
      obtain ⟨j, c⟩ := cell
      obtain ⟨hlo', hj, hc, hn'⟩ := Memory.wfFrom_cons.mp hn
      have hkj : k ≤ j := Memory.head_le_of_read_ne hm (by rwa [h j hlo' hj, read_cons_self])
      have hjk : j ≤ k := Memory.head_le_of_read_ne hn (by rwa [← h k hlo hk, read_cons_self])
      obtain rfl : k = j := by omega
      obtain rfl : b = c := by simpa using h k hlo hk
      rw [ih hm' hn' fun a ha ha' => ?_]
      have hne : k ≠ a := by omega
      have := h a (by omega) ha'
      rwa [Memory.read_cons_of_ne hne, Memory.read_cons_of_ne hne] at this

/-- Settles O33, by induction on the lists from their lowest address on. -/
theorem canonicalMemoriesReadingAlikeAreEqual : Obligations.CanonicalMemoriesReadingAlikeAreEqual := by
  unfold Obligations.CanonicalMemoriesReadingAlikeAreEqual
  exact fun m n hm hn h => Memory.eq_of_read_eq hm hn fun a _ ha => h a ha

end Sys2Proof.Machine
end

section
/-! SUPPORT. The flag register, and the values at reset. -/

namespace Sys2Proof.Machine

theorem flagByte_eq_zero_or_one (f : Bool) : flagByte f = 0#8 ∨ flagByte f = 1#8 := by
  cases f
  · exact .inl rfl
  · exact .inr rfl

/-- After an instruction that writes VF as a flag, VF holds a flag (10_state.md R22). -/
theorem reg_vf_of_writesFlag {i : Instr} {s t : State} (hw : writesFlag i = true) (he : exec i s = .next t)
    (hf : faultOf i s = none) : ∃ f, t.reg vf = flagByte f := by
  cases i with
  | addReg _ _ | sub _ _ | subn _ _ | shr _ _ | shl _ _ =>
    cases he
    exact ⟨_, by rw [State.reg_advance, State.reg_setResultAndFlag, if_pos rfl]⟩
  | drw x y n =>
    cases (exec_drw_of_faultOf_none hf).symm.trans he
    exact ⟨_, by rw [State.reg_advance, State.reg_present, State.reg_setFlag, if_pos rfl]⟩
  | _ => cases hw

/-- Settles O27: the six write a flag last, and the frame keeps VF for the others. -/
theorem onlySixInstructionsWriteTheFlag : Obligations.OnlySixInstructionsWriteTheFlag := by
  unfold Obligations.OnlySixInstructionsWriteTheFlag
  intro i s t he hf
  constructor
  · intro hw
    obtain ⟨f, hvf⟩ := reg_vf_of_writesFlag hw he hf
    rw [hvf]
    exact flagByte_eq_zero_or_one f
  · exact fun _ hvf => (exec_frame he hf).reg hvf

theorem reg_reset (r : Reg) : State.reset.reg r = 0#8 := Vector.getElem_replicate r.isLt

theorem pressed_reset (k : Key) : State.reset.pressed k = false := Vector.getElem_replicate k.isLt

/-- With nothing listed the font range reads as the font (20_memory.md R62). -/
theorem Memory.read_nil_font {k : Nat} (h : k < fontBytes.length) :
    some (Memory.read [] (0x100 + k)) = fontBytes[k]? := by
  have hfont : Config.fontBase ≤ 0x100 + k := Nat.le_add_right _ _
  have hk : 0x100 + k - Config.fontBase = k := Nat.add_sub_cancel_left _ _
  rw [Memory.read, unlisted, if_pos hfont, hk, List.getD_eq_getElem _ _ h, List.getElem?_eq_getElem h]

/-- Settles O55, each value by what the reset state lists. -/
theorem resetValues : Obligations.ResetValues := by
  unfold Obligations.ResetValues
  exact ⟨reg_reset, rfl, rfl, rfl, rfl, rfl, pressed_reset, rfl, rfl, Frame.pixel_blank, rfl,
    fun _ => Memory.read_nil_font, rfl⟩

end Sys2Proof.Machine
end

section
/-! SUPPORT. The invariant: it holds at reset, and every step of every agent keeps it. -/

namespace Sys2Proof.Machine

variable {s t : State}

/-- With both channel bits 0 and nothing waiting the channel is as it must be (10_state.md R28). -/
theorem ChannelInv.of_clear (hrun : s.run ≠ .waitKey) (hreq : s.reqPending = false) (hresp : s.respValid = false) :
    ChannelInv s :=
  ⟨by simp [hreq], fun _ => ⟨hreq, hresp⟩, fun h => absurd h hrun⟩

theorem FaultInv.of_ne (h : s.run ≠ .fault) : FaultInv s := fun hf => absurd hf h

/-- Settles O57. -/
theorem resetMeetsTheInvariant : Obligations.ResetMeetsTheInvariant := by
  unfold Obligations.ResetMeetsTheInvariant
  exact ⟨rfl, .of_clear nofun rfl rfl, ⟨le_rfl, le_rfl⟩, .of_ne nofun⟩

/-! The engine -/

theorem raise_keeps_inv {code : FaultCode} {word addr : Option Word} (hs : s.Inv) (hr : s.run = .run)
    (hc : code ≠ .noFault) (h : raise code word addr s = .next t) : t.Inv ∧ s.clock ≤ t.clock := by
  obtain ⟨hmem, ⟨-, hclear, -⟩, hclock, -⟩ := hs
  obtain ⟨hreq, hresp⟩ := hclear (by simp [hr])
  cases h
  exact ⟨⟨hmem, .of_clear nofun hreq hresp, hclock, fun _ => ⟨hc, rfl⟩⟩, le_rfl⟩

theorem takeKey_keeps_inv (hs : s.Inv) (hv : s.respValid = true) :
    (takeKey s).Inv ∧ s.clock ≤ (takeKey s).clock := by
  obtain ⟨hmem, ⟨hone, -, -⟩, hclock, -⟩ := hs
  have hreq : s.reqPending = false := by simpa [hv] using hone
  exact ⟨⟨hmem, .of_clear nofun hreq rfl, hclock, .of_ne nofun⟩, le_rfl⟩

/-- An instruction keeps the canonical form: the two stores write through `writeBytes`, no other changes memory. -/
theorem exec_keeps_wf {i : Instr} (hm : s.mem.wf = true) (he : exec i s = .next t) (hf : faultOf i s = none) :
    t.mem.wf = true := by
  cases i with
  | ldB x =>
    cases (exec_ldB_of_faultOf_none hf).symm.trans he
    exact Memory.wf_writeBytes hm _ _
  | storeRegs x =>
    cases (exec_storeRegs_of_faultOf_none hf).symm.trans he
    exact Memory.wf_writeBytes hm _ _
  | loadRegs x =>
    cases (exec_loadRegs_of_faultOf_none hf).symm.trans he
    exact hm
  | drw x y n =>
    cases (exec_drw_of_faultOf_none hf).symm.trans he
    exact hm
  | _ => rwa [exec_mem_eq rfl he]

/-- An instruction takes no clock sample below the latest one, and sets a timer at the sample it takes. -/
theorem exec_keeps_clockInv {i : Instr} (hc : ClockInv s) (he : exec i s = .next t) (hf : faultOf i s = none) :
    ClockInv t ∧ s.clock ≤ t.clock := by
  have hframe := exec_frame he hf
  obtain ⟨hdt, hst⟩ := hc
  have hnow := s.clock_le_now
  cases i with
  | ldVxDt x => cases he; exact ⟨⟨hdt.trans hnow, hst.trans hnow⟩, hnow⟩
  | ldDtVx x => cases he; exact ⟨⟨le_rfl, hst.trans hnow⟩, hnow⟩
  | ldStVx x => cases he; exact ⟨⟨hdt.trans hnow, le_rfl⟩, hnow⟩
  | _ =>
    have hclock := (hframe.clock (by simp [partsWritten])).1
    rw [ClockInv, hframe.dt (by simp [partsWritten]), hframe.st (by simp [partsWritten]), hclock]
    exact ⟨⟨hdt, hst⟩, le_rfl⟩

/-- A running instruction that raises no fault waits for a key (phase A of `LD Vx,K`), or leaves the channel alone
and runs on or halts. -/
theorem exec_run_channel {i : Instr} (hr : s.run = .run) (he : exec i s = .next t) (hf : faultOf i s = none) :
    (∃ x, i = .ldVxK x ∧ t = { s with reqPending := true, respValid := false, waitX := x, run := .waitKey }) ∨
    (t.run = .run ∨ t.run = .halt) ∧ t.reqPending = s.reqPending ∧ t.respValid = s.respValid := by
  have hframe := exec_frame he hf
  cases i with
  | ldVxK x => cases he; exact .inl ⟨x, rfl, rfl⟩
  | jp nnn =>
    obtain ⟨hreq, hresp, -⟩ := hframe.channel (by simp [partsWritten])
    refine .inr ⟨?_, hreq, hresp⟩
    simp only [exec, execJp] at he
    split_ifs at he <;> cases he
    · exact .inr rfl
    · exact .inl hr
    · exact .inl hr
  | _ =>
    obtain ⟨hreq, hresp, -⟩ := hframe.channel (by simp [partsWritten])
    exact .inr ⟨.inl ((hframe.run (by simp [partsWritten])).trans hr), hreq, hresp⟩

theorem waitsAtPc_of_decode {w : Word} (hw : fetch s = some w) (hi : decodeWord w = .ok (.ldVxK s.waitX)) :
    waitsAtPc s = true := by
  simp [waitsAtPc, hw, hi]

/-- The instruction at pc, where it raises no fault. -/
theorem exec_keeps_inv {w : Word} {i : Instr} (hs : s.Inv) (hr : s.run = .run) (hw : fetch s = some w)
    (hi : decodeWord w = .ok i) (he : exec i s = .next t) (hf : faultOf i s = none) :
    t.Inv ∧ s.clock ≤ t.clock := by
  obtain ⟨hmem, ⟨-, hclear, -⟩, hclock, -⟩ := hs
  obtain ⟨hreq, hresp⟩ := hclear (by simp [hr])
  obtain ⟨hclock', hle⟩ := exec_keeps_clockInv hclock he hf
  have hmem' := exec_keeps_wf hmem he hf
  rcases exec_run_channel hr he hf with ⟨x, rfl, rfl⟩ | ⟨hrun, hreq', hresp'⟩
  · have hwaits : waitsAtPc { s with reqPending := true, respValid := false, waitX := x, run := .waitKey } = true :=
      waitsAtPc_of_decode ((fetch_congr rfl rfl).trans hw) hi
    exact ⟨⟨hmem', ⟨nofun, nofun, fun _ => ⟨.inl rfl, hwaits⟩⟩, hclock', .of_ne nofun⟩, hle⟩
  · have hne : t.run ≠ .waitKey ∧ t.run ≠ .fault := by rcases hrun with h | h <;> simp [h]
    exact ⟨⟨hmem', .of_clear hne.1 (hreq'.trans hreq) (hresp'.trans hresp), hclock', .of_ne hne.2⟩, hle⟩

theorem runInstruction_keeps_inv (hs : s.Inv) (hr : s.run = .run) (h : runInstruction s = .next t) :
    t.Inv ∧ s.clock ≤ t.clock := by
  unfold runInstruction at h
  cases hw : fetch s with
  | none =>
    rw [hw] at h
    exact raise_keeps_inv hs hr (by decide) h
  | some w =>
    simp only [hw] at h
    cases hi : decodeWord w with
    | error e =>
      rw [hi] at h
      exact raise_keeps_inv hs hr (by decide) h
    | ok i =>
      rw [hi] at h
      cases hf : faultOf i s with
      | none => exact exec_keeps_inv hs hr hw hi h hf
      | some c =>
        obtain ⟨word, addr, he⟩ := exec_of_faultOf_some hf
        exact raise_keeps_inv hs hr (fun hc => faultOf_ne_noFault i s (hc ▸ hf)) (he.symm.trans h)

theorem engineStep_keeps_inv (hs : s.Inv) (h : engineStep s = .next t) : t.Inv ∧ s.clock ≤ t.clock := by
  have idle (hi : engineStep s = .next s) : t.Inv ∧ s.clock ≤ t.clock := by
    cases hi.symm.trans h
    exact ⟨hs, le_rfl⟩
  cases hh : s.held with
  | true => exact idle (engineStep_held hh)
  | false =>
    cases hr : s.run with
    | run => exact runInstruction_keeps_inv hs hr ((engineStep_run hh hr).symm.trans h)
    | waitKey =>
      have hstep := engineStep_waitKey hh hr
      by_cases hv : s.respValid = true
      · rw [if_pos hv] at hstep
        cases hstep.symm.trans h
        exact takeKey_keeps_inv hs hv
      · exact idle (hstep.trans (if_neg hv))
    | halt => exact idle (engineStep_ended (by simp [runEnded, hr]))
    | fault => exact idle (engineStep_ended (by simp [runEnded, hr]))

/-! The other agents -/

/-- A key-down: a pending request is there only while waiting, and is then exchanged for the key handed off. -/
theorem keyDown_keeps_inv (k : Key) (hs : s.Inv) : (keyDown k s).Inv ∧ s.clock ≤ (keyDown k s).clock := by
  unfold keyDown
  obtain ⟨hmem, ⟨hone, hclear, hwait⟩, hclock, hfault⟩ := hs
  split
  · next hreq =>
    have hr : s.run = .waitKey := by
      by_contra hne
      simp [(hclear hne).1] at hreq
    exact ⟨⟨hmem, ⟨nofun, (absurd hr ·), fun _ => ⟨.inr rfl, (hwait hr).2⟩⟩, hclock, hfault⟩, le_rfl⟩
  · exact ⟨⟨hmem, ⟨hone, hclear, hwait⟩, hclock, hfault⟩, le_rfl⟩

theorem stopRun_keeps_inv (hs : s.Inv) : (stopRun s).Inv ∧ s.clock ≤ (stopRun s).clock := by
  have ⟨hmem, _, hclock, _⟩ := hs
  have stopped : ({ s with run := .halt, reqPending := false, respValid := false } : State).Inv :=
    ⟨hmem, .of_clear nofun rfl rfl, hclock, .of_ne nofun⟩
  unfold stopRun
  cases s.run with
  | run => exact ⟨stopped, le_rfl⟩
  | waitKey => exact ⟨stopped, le_rfl⟩
  | halt => exact ⟨hs, le_rfl⟩
  | fault => exact ⟨hs, le_rfl⟩

theorem sampled_keeps_inv (hs : s.Inv) : s.sampled.Inv ∧ s.clock ≤ s.sampled.clock := by
  obtain ⟨hmem, hchannel, ⟨hdt, hst⟩, hfault⟩ := hs
  have hnow := s.clock_le_now
  exact ⟨⟨hmem, hchannel, ⟨hdt.trans hnow, hst.trans hnow⟩, hfault⟩, hnow⟩

/-- A reset, its load accepted or refused. -/
theorem loadOrRefuse_keeps_inv (image : List Byte) (fill : List Host.Cell) (hs : s.Inv) :
    (loadOrRefuse image fill s).Inv ∧ s.clock ≤ (loadOrRefuse image fill s).clock := by
  unfold loadOrRefuse
  split
  · exact ⟨hs, le_rfl⟩
  · have hmem : (loadedMemory image fill).wf = true :=
      Memory.wf_writeBytes (Memory.wf_fillWith rfl fill) _ _
    exact ⟨⟨hmem, .of_clear nofun rfl rfl, ⟨le_rfl, le_rfl⟩, .of_ne nofun⟩, s.clock_le_now⟩

theorem hostStep_keeps_inv (e : HostEvent) (hs : s.Inv) : (hostStep e s).Inv ∧ s.clock ≤ (hostStep e s).clock := by
  cases e with
  | keyDown k => exact keyDown_keeps_inv k hs
  | keyUp k => exact ⟨hs, le_rfl⟩
  | stop => exact stopRun_keeps_inv hs
  | reset image fill => exact loadOrRefuse_keeps_inv image fill hs
  | resetText text fill =>
    simp only [hostStep]
    cases imageOfText text with
    | none => exact ⟨hs, le_rfl⟩
    | some image => exact loadOrRefuse_keeps_inv image fill hs
  | pollDt => exact sampled_keeps_inv hs
  | pollSt => exact sampled_keeps_inv hs

/-- Settles O58, by whose turn it is. -/
theorem everyStepKeepsTheInvariant : Obligations.EveryStepKeepsTheInvariant := by
  unfold Obligations.EveryStepKeepsTheInvariant
  intro s t hs h
  rcases turn_cases s with hengine | ⟨e, rest, hhost⟩
  · exact engineStep_keeps_inv (s := turnTaken s) hs ((step_engineNext hengine).symm.trans h)
  · cases (step_host hhost).symm.trans h
    exact hostStep_keeps_inv (s := turnTaken s) e hs

end Sys2Proof.Machine
end

section
/-! SUPPORT. Memory as the instructions see it: which of them reach it, and what a block store leaves for later
reads. -/

namespace Sys2Proof.Machine

/-- Settles O34, by memory not being reached. -/
theorem otherInstructionsIgnoreMemory : Obligations.OtherInstructionsIgnoreMemory := by
  unfold Obligations.OtherInstructionsIgnoreMemory
  intro i s t m hi he
  have hmem : ¬(Overlay.mem m).reachedBy i := by simp [Overlay.reachedBy, hi]
  exact exec_put_of_next hmem he

/-- What a block store leaves at I + r is V[r] (43_memory_addressing.md R184). -/
theorem read_of_exec_storeRegs {x r : Reg} {s t : State} (hm : s.mem.wf = true)
    (hx : s.i.toNat + x.toNat ≤ 4095) (he : exec (.storeRegs x) s = .next t) (hr : r.toNat ≤ x.toNat) :
    t.mem.read (s.i.toNat + r.toNat) = s.reg r := by
  have hf : faultOf (.storeRegs x) s = none := if_neg (by omega)
  have hfits : s.i.toNat + (s.regsUpTo x).length ≤ Config.memSize := by
    rw [State.length_regsUpTo, Config.memSize]
    omega
  have hin : s.i.toNat ≤ s.i.toNat + r.toNat ∧ s.i.toNat + r.toNat < s.i.toNat + (s.regsUpTo x).length := by
    rw [State.length_regsUpTo]
    omega
  cases (exec_storeRegs_of_faultOf_none hf).symm.trans he
  calc (s.mem.writeBytes s.i.toNat (s.regsUpTo x)).read (s.i.toNat + r.toNat)
      = (s.regsUpTo x).getD (s.i.toNat + r.toNat - s.i.toNat) 0#8 := by
        rw [Memory.read_writeBytes hm hfits, if_pos hin]
    _ = s.reg r := by rw [Nat.add_sub_cancel_left, State.getD_regsUpTo s x r hr]

/-- Settles O35: the fetch reads I + r and I + r + 1, where the store left Vr and V(r+1). -/
theorem storedBytesAreFetched : Obligations.StoredBytesAreFetched := by
  unfold Obligations.StoredBytesAreFetched
  intro x r s t hm hx he hr
  have hnext : (r + 1#4).toNat = r.toNat + 1 := by
    have := x.isLt
    simp only [BitVec.toNat_add, BitVec.toNat_ofNat]
    omega
  have hpc : (s.i + BitVec.ofNat 16 r.toNat).toNat = s.i.toNat + r.toNat := by
    simp only [BitVec.toNat_add, BitVec.toNat_ofNat]
    omega
  have hhi : t.mem.read (s.i.toNat + r.toNat) = s.reg r := read_of_exec_storeRegs hm hx he (by omega)
  have hlo : t.mem.read (s.i.toNat + r.toNat + 1) = s.reg (r + 1#4) := by
    rw [Nat.add_assoc, ← hnext]
    exact read_of_exec_storeRegs hm hx he (by omega)
  rw [fetch_of_le (by simp only [hpc]; omega)]
  simp only [hpc, hhi, hlo, wordOf]

end Sys2Proof.Machine
end

section
/-! SUPPORT. Decoder and encoder are inverse (30_encoding.md R94, R95), and the words that decode to nothing
(R97). -/

namespace Sys2Proof

/-! The encoder on the decoder's fields: a word is put together again from its high nibble and its operands. -/

section
variable {w : Word} {op n : BitVec 4} {nn : Byte}

theorem formNNN_of_opOf (h : opOf w = op) : formNNN op (nnnOf w) = w := by
  rw [← h, formNNN_fields]

theorem formXNN_of_opOf_nnOf (h : opOf w = op ∧ nnOf w = nn) : formXNN op (xOf w) nn = w := by
  rw [← h.1, ← h.2, formXNN_fields]

theorem formXYN_of_opOf_nOf (h : opOf w = op ∧ nOf w = n) : formXYN op (xOf w) (yOf w) n = w := by
  rw [← h.1, ← h.2, formXYN_fields]
end

/-- The word of a well-formed SYS is neither CLS nor RET. -/
theorem formNNN_ne_of_wellFormed_sys {nnn : BitVec 12} (h : WellFormed (.sys nnn) = true) :
    formNNN 0x0#4 nnn ≠ 0x00E0#16 ∧ formNNN 0x0#4 nnn ≠ 0x00EE#16 := by
  obtain ⟨hcls, hret⟩ : nnn ≠ 0x0E0#12 ∧ nnn ≠ 0x0EE#12 := by simpa [WellFormed] using h
  exact ⟨fun e => hcls ((nnnOf_formNNN _ nnn).symm.trans (congrArg nnnOf e)),
    fun e => hret ((nnnOf_formNNN _ nnn).symm.trans (congrArg nnnOf e))⟩

/-- Settles O1, by the instruction's format: the decoder's tests read back the fields the word was made of. -/
theorem decodeOfEncode : Obligations.DecodeOfEncode := by
  unfold Obligations.DecodeOfEncode
  intro i hwf
  cases i with
  | cls | ret => rfl
  | sys nnn =>
    simp [encode, decodeWord, formNNN_ne_of_wellFormed_sys hwf]
  | jp _ | call _ | ldI _ | jpV0 _ =>
    simp [encode, decodeWord, formNNN_ne_cls, formNNN_ne_ret]
  | drw _ _ _ | seReg _ _ | sneReg _ _ | ldReg _ _ | orReg _ _ | andReg _ _ | xorReg _ _ | addReg _ _ | sub _ _
  | shr _ _ | subn _ _ | shl _ _ =>
    simp [encode, decodeWord, formXYN_ne_cls, formXYN_ne_ret]
  | seImm _ _ | sneImm _ _ | ldImm _ _ | addImm _ _ | rnd _ _ | skp _ | sknp _ | ldVxDt _ | ldVxK _ | ldDtVx _
  | ldStVx _ | addI _ | ldF _ | ldB _ | storeRegs _ | loadRegs _ =>
    simp [encode, decodeWord, formXNN_ne_cls, formXNN_ne_ret]

/-- A word of high nibble 0 that is neither CLS nor RET is that of a well-formed SYS. -/
theorem wellFormed_sys_nnnOf {w : Word} (hop : opOf w = 0x0#4) (hcls : w ≠ 0x00E0#16) (hret : w ≠ 0x00EE#16) :
    WellFormed (.sys (nnnOf w)) = true := by
  have hw := formNNN_of_opOf hop
  simp only [WellFormed, Bool.and_eq_true, bne_iff_ne]
  exact ⟨fun e => hcls (by rw [← hw, e]; rfl), fun e => hret (by rw [← hw, e]; rfl)⟩

/-- An answer of the decoder, if it is an instruction, is the instruction the word `w` stands for. -/
def AnswerFits (w : Word) (r : Except DecodeReject Instr) : Prop :=
  ∀ i, r = .ok i → encode i = w ∧ WellFormed i = true

/-- One line of the decoder. -/
theorem AnswerFits.ite {w : Word} {c : Prop} [Decidable c] {i : Instr} {rest : Except DecodeReject Instr}
    (hline : c → encode i = w ∧ WellFormed i = true) (hrest : ¬c → AnswerFits w rest) :
    AnswerFits w (if c then .ok i else rest) := by
  split
  · next hc =>
    rintro _ ⟨⟩
    exact hline hc
  · next hc => exact hrest hc

theorem AnswerFits.error (w : Word) (r : DecodeReject) : AnswerFits w (.error r) := nofun

/-- Line by line: the word is put together again from the fields the line tests and those it hands on. -/
theorem answerFits_decodeWord (w : Word) : AnswerFits w (decodeWord w) := by
  unfold decodeWord
  refine .ite (fun hcls => ⟨hcls.symm, rfl⟩) fun hcls => ?_
  refine .ite (fun hret => ⟨hret.symm, rfl⟩) fun hret => ?_
  refine .ite (fun hsys => ⟨formNNN_of_opOf hsys, wellFormed_sys_nnnOf hsys hcls hret⟩) fun _ => ?_
  repeat' refine AnswerFits.ite (fun h => ⟨?_, rfl⟩) fun _ => ?_
  on_goal -1 => exact .error w _
  all_goals simp only [encode, formNNN_of_opOf, formXNN_of_opOf_nnOf, formXYN_of_opOf_nOf, h, and_self]

/-- Settles O2: the decoder's answer fits its word. -/
theorem encodeOfDecode : Obligations.EncodeOfDecode := by
  unfold Obligations.EncodeOfDecode
  exact answerFits_decodeWord

/-- A line of the decoder answers an instruction, so a rejection comes from the lines after it. -/
theorem ite_ok_eq_error_iff {c : Prop} [Decidable c] {i : Instr} {rest : Except DecodeReject Instr}
    {r : DecodeReject} : (if c then .ok i else rest) = .error r ↔ ¬c ∧ rest = .error r := by
  split <;> simp [*]

/-- The five illegal families of 30_encoding.md R97, on a word as a number. -/
def IllegalFamily (a : Nat) : Prop :=
  (a / 4096 = 0x5 ∧ a % 16 ≠ 0) ∨
  (a / 4096 = 0x8 ∧ a % 16 ∈ [0x8, 0x9, 0xA, 0xB, 0xC, 0xD, 0xF]) ∨
  (a / 4096 = 0x9 ∧ a % 16 ≠ 0) ∨
  (a / 4096 = 0xE ∧ a % 256 ∉ [0x9E, 0xA1]) ∨
  (a / 4096 = 0xF ∧ a % 256 ∉ [0x07, 0x0A, 0x15, 0x18, 0x1E, 0x29, 0x33, 0x55, 0x65])

/-- A word is rejected where no line matches, which leaves the five families, high nibble by high nibble. -/
theorem decodeWord_eq_error_iff (w : Word) (r : DecodeReject) :
    decodeWord w = .error r ↔ IllegalFamily w.toNat ∧ .illegal w = r := by
  simp only [decodeWord, ite_ok_eq_error_iff, ← and_assoc, Except.error.injEq]
  refine and_congr_left' ?_
  simp only [BitVec.toNat_eq, toNat_opOf, toNat_nOf, toNat_nnOf, BitVec.toNat_ofNat, IllegalFamily]
  have hnibble : w.toNat / 4096 < 16 := Nat.div_lt_of_lt_mul w.isLt
  generalize hq : w.toNat / 4096 = q at *
  interval_cases q <;> simp <;> omega

/-- Settles O3, by the line no test of which matched. -/
theorem illegalWordsAreThoseListed : Obligations.IllegalWordsAreThoseListed := by
  unfold Obligations.IllegalWordsAreThoseListed
  intro w
  exact ⟨(decodeWord_eq_error_iff w _).trans (and_iff_left rfl),
    fun r h => ((decodeWord_eq_error_iff w r).mp h).2.symm⟩

/-- Settles O4, each word by running the decoder. -/
theorem sampleWordsDecode : Obligations.SampleWordsDecode := by
  unfold Obligations.SampleWordsDecode
  decide

end Sys2Proof
end

section
/-! SUPPORT. Each family's instructions answer a next state, and change in it only what their rows list
(30_encoding.md R95). -/

namespace Sys2Proof.Machine

variable {i : Instr} {s t : State}

/-- An instruction that raises no fault answers a next state, in which only what its row lists differs. -/
theorem exec_next_of_faultOf_none (hf : faultOf i s = none) :
    ∃ t, exec i s = .next t ∧ KeepsBut (destinations i) (partsWritten i) s t := by
  suffices h : ∃ t, exec i s = .next t from h.imp fun _ he => ⟨he, exec_frame he hf⟩
  cases i with
  | call nnn => exact (exec_call_of_faultOf_none hf).elim fun _ h => ⟨_, h.2⟩
  | ret => exact (exec_ret_of_faultOf_none hf).imp fun _ h => h.2
  | ldB x => exact ⟨_, exec_ldB_of_faultOf_none hf⟩
  | storeRegs x => exact ⟨_, exec_storeRegs_of_faultOf_none hf⟩
  | loadRegs x => exact ⟨_, exec_loadRegs_of_faultOf_none hf⟩
  | drw x y n => exact ⟨_, exec_drw_of_faultOf_none hf⟩
  | jp nnn =>
    simp only [exec, execJp]
    split_ifs <;> exact ⟨_, rfl⟩
  | _ => exact ⟨_, rfl⟩

/-- Settles O51: the frame holds in every family, so in this one. -/
theorem controlFlowFrame : Obligations.ControlFlowFrame := by
  unfold Obligations.ControlFlowFrame
  exact fun _ _ _ => exec_next_of_faultOf_none

/-- Settles O54: the frame holds in every family, so in these. -/
theorem deviceFrame : Obligations.DeviceFrame := by
  unfold Obligations.DeviceFrame
  exact fun _ _ _ => exec_next_of_faultOf_none

/-- A register operation raises no fault and writes no part of the state but pc. -/
theorem faultOf_partsWritten_register (hi : familyOf i = .register) (s : State) :
    faultOf i s = none ∧ partsWritten i = [.pc] := by
  cases i with
  | ldImm _ _ | addImm _ _ | ldReg _ _ | orReg _ _ | andReg _ _ | xorReg _ _ | addReg _ _ | sub _ _ | shr _ _
  | subn _ _ | shl _ _ => exact ⟨rfl, rfl⟩
  | _ => cases hi

/-- The register and the addressing instructions go on to the next word (40_fetch_dispatch.md R123). -/
theorem exec_pc_register_addressing (hi : familyOf i = .register ∨ familyOf i = .addressing)
    (he : exec i s = .next t) (hf : faultOf i s = none) : t.pc = s.pc + 2#16 := by
  cases i with
  | ldImm _ _ | addImm _ _ | ldReg _ _ | orReg _ _ | andReg _ _ | xorReg _ _ | addReg _ _ | sub _ _ | shr _ _
  | subn _ _ | shl _ _ | ldI _ | addI _ | ldF _ => cases he; rfl
  | ldB x => cases (exec_ldB_of_faultOf_none hf).symm.trans he; rfl
  | storeRegs x => cases (exec_storeRegs_of_faultOf_none hf).symm.trans he; rfl
  | loadRegs x => cases (exec_loadRegs_of_faultOf_none hf).symm.trans he; rfl
  | _ => rcases hi with hi | hi <;> cases hi

/-- Settles O52: the general frame, for rows that list no part but pc. -/
theorem registerFrame : Obligations.RegisterFrame := by
  unfold Obligations.RegisterFrame
  intro i s hi
  obtain ⟨hf, hparts⟩ := faultOf_partsWritten_register hi s
  obtain ⟨t, he, hkeeps⟩ := exec_next_of_faultOf_none hf
  exact ⟨t, he, exec_pc_register_addressing (.inl hi) he hf, hparts ▸ hkeeps⟩

/-- The BCD store changes its three bytes alone (43_memory_addressing.md R183). -/
theorem exec_ldB_keepsBytesOutside {x : Reg} (he : exec (.ldB x) s = .next t) (hf : faultOf (.ldB x) s = none) :
    KeepsBytesOutside (s.atI 0) 3 s t := by
  cases (exec_ldB_of_faultOf_none hf).symm.trans he
  exact fun b hb => Memory.read_writeBytes_outside s.mem _ (bcdDigits (s.reg x)) hb

/-- The block store changes its x + 1 bytes alone (43_memory_addressing.md R184). -/
theorem exec_storeRegs_keepsBytesOutside {x : Reg} (he : exec (.storeRegs x) s = .next t)
    (hf : faultOf (.storeRegs x) s = none) : KeepsBytesOutside (s.atI 0) (x.toNat + 1) s t := by
  cases (exec_storeRegs_of_faultOf_none hf).symm.trans he
  rw [← s.length_regsUpTo x]
  exact fun b hb => Memory.read_writeBytes_outside s.mem _ (s.regsUpTo x) hb

/-- Settles O53: the general frame, and for the two stores what a run of writes leaves. -/
theorem addressingFrame : Obligations.AddressingFrame := by
  unfold Obligations.AddressingFrame
  intro i s hi hf
  obtain ⟨t, he, hkeeps⟩ := exec_next_of_faultOf_none hf
  refine ⟨t, he, exec_pc_register_addressing (.inr hi) he hf, hkeeps, ?_, ?_⟩
  · rintro x rfl
    exact exec_ldB_keepsBytesOutside he hf
  · rintro x rfl
    exact exec_storeRegs_keepsBytesOutside he hf

end Sys2Proof.Machine
end

section
/-! SUPPORT. Fetch and dispatch (40_fetch_dispatch.md): what a running engine's step does by what the bytes at pc
decode to, what each change of the run state takes, and that an ended run stays ended. -/

namespace Sys2Proof.Machine

variable {s t : State}

/-! Fetch, decode, dispatch: an equation per outcome -/

/-- The first byte is the high one (20_memory.md R64). -/
@[simp] theorem toNat_wordOf (hi lo : Byte) : (wordOf hi lo).toNat = hi.toNat * 256 + lo.toNat := by
  rw [wordOf, BitVec.toNat_append, ← Nat.shiftLeft_add_eq_or_of_lt lo.isLt, Nat.shiftLeft_eq]

theorem runInstruction_of_fetch_none (hw : fetch s = none) :
    runInstruction s = raise .addrFetch none (some s.pc) s := by
  simp only [runInstruction, hw]

theorem runInstruction_of_decode_error {w : Word} {r : DecodeReject} (hw : fetch s = some w)
    (hi : decodeWord w = .error r) : runInstruction s = raise .decode (some w) none s := by
  simp only [runInstruction, hw, hi]

theorem runInstruction_of_decode_ok {w : Word} {i : Instr} (hw : fetch s = some w) (hi : decodeWord w = .ok i) :
    runInstruction s = exec i s := by
  simp only [runInstruction, hw, hi]

theorem decodeWord_of_decodeBytes {hi lo : Byte} {i : Instr} (h : decodeBytes [hi, lo] = .ok (i, [])) :
    decodeWord (wordOf hi lo) = .ok i := by
  unfold decodeBytes at h
  cases hd : decodeWord (wordOf hi lo) with
  | ok j =>
    simp only [hd] at h
    cases h
    rfl
  | error r => simp [hd] at h

/-- Settles O5. -/
theorem fetchInsideAndOutsideMemory : Obligations.FetchInsideAndOutsideMemory := by
  unfold Obligations.FetchInsideAndOutsideMemory
  intro s
  refine ⟨fun hpc hr he => ?_, fun hpc => ⟨_, fetch_of_le hpc, toNat_wordOf _ _⟩⟩
  have hw : fetch (turnTaken s) = none := fetch_of_gt hpc
  exact (step_run he hr).trans (runInstruction_of_fetch_none hw)

/-- Settles O6. -/
theorem stepRunsTheDecodedInstruction : Obligations.StepRunsTheDecodedInstruction := by
  unfold Obligations.StepRunsTheDecodedInstruction
  intro s i hr he hpc hbytes
  have hw : fetch (turnTaken s) = some _ := fetch_of_le hpc
  exact (step_run he hr).trans (runInstruction_of_decode_ok hw (decodeWord_of_decodeBytes hbytes))

/-- Settles O7. -/
theorem illegalWordFaults : Obligations.IllegalWordFaults := by
  unfold Obligations.IllegalWordFaults
  intro s w r hr he hw hi
  have hw' : fetch (turnTaken s) = some w := hw
  exact (step_run he hr).trans (runInstruction_of_decode_error hw' hi)

/-- The engine waiting with no key handed off has no step: it idles, held in reset or not. -/
theorem engineStep_waiting (hr : s.run = .waitKey) (hv : s.respValid = false) : engineStep s = .next s := by
  cases hh : s.held with
  | true => exact engineStep_held hh
  | false => exact (engineStep_waitKey hh hr).trans (if_neg (by simp [hv]))

/-- Settles O8, by which of the four ways the engine has no step. -/
theorem engineWithoutAStepIdles : Obligations.EngineWithoutAStepIdles := by
  unfold Obligations.EngineWithoutAStepIdles
  intro s he hs
  rw [step_engineNext he]
  rcases hs with hh | hr | hr | ⟨hr, hv⟩
  · exact engineStep_held hh
  · exact engineStep_ended (by simp [runEnded, hr])
  · exact engineStep_ended (by simp [runEnded, hr])
  · exact engineStep_waiting hr hv

/-! The host's events and the run state -/

theorem stopRun_of_live (h : s.run = .run ∨ s.run = .waitKey) :
    stopRun s = { s with run := .halt, reqPending := false, respValid := false } := by
  rcases h with h | h <;> simp only [stopRun, h]

theorem stopRun_of_ended (h : s.run = .halt ∨ s.run = .fault) : stopRun s = s := by
  rcases h with h | h <;> simp only [stopRun, h]

/-- Settles O46. -/
theorem stopHaltsAndClearsTheChannel : Obligations.StopHaltsAndClearsTheChannel := by
  unfold Obligations.StopHaltsAndClearsTheChannel
  intro rest s hts
  have htaken : turnTaken s = { s with turns := rest } := by rw [turnTaken, hts, List.tail_cons]
  have hstep : step s = .next (stopRun { s with turns := rest }) := htaken ▸ step_host hts
  exact ⟨fun hr => hstep.trans (congrArg _ (stopRun_of_live hr)),
    fun hr => hstep.trans (congrArg _ (stopRun_of_ended hr))⟩

theorem RunState.live_or_ended (r : RunState) : (r = .run ∨ r = .waitKey) ∨ (r = .halt ∨ r = .fault) := by
  cases r <;> simp

theorem loadOrRefuse_run (image : List Byte) (fill : List Host.Cell) (s : State) :
    (loadOrRefuse image fill s).run = s.run ∨ (loadOrRefuse image fill s).run = .run := by
  unfold loadOrRefuse
  split
  · exact .inl rfl
  · exact .inr rfl

/-- The only host events that change the run state: a reset, to RUN, and a stop of a live engine, to HALT. -/
theorem hostStep_run (e : HostEvent) (s : State) :
    (hostStep e s).run = s.run ∨ (isReset e = true ∧ (hostStep e s).run = .run) ∨
      (e = .stop ∧ (s.run = .run ∨ s.run = .waitKey) ∧ (hostStep e s).run = .halt) := by
  cases e with
  | keyDown k =>
    simp only [hostStep, keyDown]
    split <;> exact .inl rfl
  | keyUp k => exact .inl rfl
  | stop =>
    rcases s.run.live_or_ended with hr | hr
    · exact .inr (.inr ⟨rfl, hr, congrArg State.run (stopRun_of_live hr)⟩)
    · exact .inl (congrArg State.run (stopRun_of_ended hr))
  | reset image fill => exact (loadOrRefuse_run image fill s).imp_right fun h => .inl ⟨rfl, h⟩
  | resetText text fill =>
    simp only [hostStep]
    cases imageOfText text with
    | none => exact .inl rfl
    | some image => exact (loadOrRefuse_run image fill s).imp_right fun h => .inl ⟨rfl, h⟩
  | pollDt => exact .inl rfl
  | pollSt => exact .inl rfl

/-! The transition table -/

/-- The transition table of 40_fetch_dispatch.md R124: the run states a step may leave, from `s` on, each with
what it takes. -/
inductive RunChange (s : State) : RunState → Prop where
  | same : RunChange s s.run
  | reset (hturn : ResetTurn s) : RunChange s .run
  | stop (hturn : s.turns.head? = some (Turn.host .stop)) (hr : s.run = .run ∨ s.run = .waitKey) :
      RunChange s .halt
  | fault (he : EngineTurn s) (hr : s.run = .run) : RunChange s .fault
  | wait (he : EngineTurn s) (hr : s.run = .run) {w : Word} {x : Reg} (hw : fetch s = some w)
      (hi : decodeWord w = .ok (.ldVxK x)) : RunChange s .waitKey
  | keyTaken (he : EngineTurn s) (hr : s.run = .waitKey) (hv : s.respValid = true) : RunChange s .run
  | selfJump (he : EngineTurn s) (hr : s.run = .run) (hdetector : Config.selfJumpHalt = true) {w : Word}
      {nnn : BitVec 12} (hw : fetch s = some w) (hi : decodeWord w = .ok (.jp nnn))
      (hself : nnn.toNat = s.pc.toNat) : RunChange s .halt

/-- An instruction that raises no fault leaves the run state alone, but for `LD Vx,K` (46_input.md R216) and a
detected jump to itself (R126). -/
theorem exec_run_cases {i : Instr} (he : exec i s = .next t) (hf : faultOf i s = none) :
    t.run = s.run ∨ (∃ x, i = .ldVxK x ∧ t.run = .waitKey) ∨
      (∃ nnn, i = .jp nnn ∧ nnn.toNat = s.pc.toNat ∧ Config.selfJumpHalt = true ∧ t.run = .halt) := by
  have hframe := exec_frame he hf
  cases i with
  | ldVxK x => cases he; exact .inr (.inl ⟨x, rfl, rfl⟩)
  | jp nnn =>
    simp only [exec, execJp] at he
    split_ifs at he with hself hdetector <;> cases he
    · exact .inr (.inr ⟨nnn, rfl, by rw [← hself, toNat_zextAddr], hdetector, rfl⟩)
    · exact .inl rfl
    · exact .inl rfl
  | _ => exact .inl (hframe.run (by simp [partsWritten]))

/-- A running engine's step. -/
theorem runInstruction_runChange (he : EngineTurn s) (hr : s.run = .run)
    (h : runInstruction (turnTaken s) = .next t) : RunChange s t.run := by
  have raised {code : FaultCode} {word addr : Option Word}
      (hraise : runInstruction (turnTaken s) = raise code word addr (turnTaken s)) : RunChange s t.run := by
    cases hraise.symm.trans h
    exact .fault he hr
  cases hw : fetch s with
  | none => exact raised (runInstruction_of_fetch_none hw)
  | some w =>
    cases hi : decodeWord w with
    | error r => exact raised (runInstruction_of_decode_error hw hi)
    | ok i =>
      have hexec : runInstruction (turnTaken s) = exec i (turnTaken s) := runInstruction_of_decode_ok hw hi
      cases hf : faultOf i (turnTaken s) with
      | some c =>
        obtain ⟨word, addr, hraise⟩ := exec_of_faultOf_some hf
        exact raised (hexec.trans hraise)
      | none =>
        rcases exec_run_cases (hexec.symm.trans h) hf with
          hsame | ⟨x, rfl, hwait⟩ | ⟨nnn, rfl, hself, hdetector, hhalt⟩
        · exact hsame ▸ .same
        · exact hwait ▸ .wait he hr hw hi
        · exact hhalt ▸ .selfJump he hr hdetector hw hi hself

/-- The engine's turn. -/
theorem engineStep_runChange (he : EngineNext s) (h : engineStep (turnTaken s) = .next t) : RunChange s t.run := by
  have idle (hi : engineStep (turnTaken s) = .next (turnTaken s)) : RunChange s t.run := by
    cases hi.symm.trans h
    exact .same
  cases hh : s.held with
  | true => exact idle (engineStep_held hh)
  | false =>
    cases hr : s.run with
    | run => exact runInstruction_runChange ⟨hh, he⟩ hr ((engineStep_run (s := turnTaken s) hh hr).symm.trans h)
    | waitKey =>
      cases hv : s.respValid with
      | true =>
        cases ((engineStep_waitKey (s := turnTaken s) hh hr).trans (if_pos hv)).symm.trans h
        exact .keyTaken ⟨hh, he⟩ hr hv
      | false => exact idle (engineStep_waiting hr hv)
    | halt => exact idle (engineStep_ended (by simp [runEnded, hr]))
    | fault => exact idle (engineStep_ended (by simp [runEnded, hr]))

/-- A host event's turn. -/
theorem hostStep_runChange {e : HostEvent} {rest : List Turn} (hts : s.turns = .host e :: rest) :
    RunChange s (hostStep e (turnTaken s)).run := by
  have hhead : s.turns.head? = some (.host e) := by rw [hts, List.head?_cons]
  rcases hostStep_run e (turnTaken s) with hsame | ⟨hreset, hrun⟩ | ⟨rfl, hlive, hhalt⟩
  · exact hsame ▸ .same
  · exact hrun ▸ .reset ⟨e, hreset, hhead⟩
  · exact hhalt ▸ .stop hhead hlive

theorem step_runChange (h : step s = .next t) : RunChange s t.run := by
  rcases turn_cases s with hengine | ⟨e, rest, hhost⟩
  · exact engineStep_runChange hengine ((step_engineNext hengine).symm.trans h)
  · cases (step_host hhost).symm.trans h
    exact hostStep_runChange hhost

/-- Settles O9: what each row of the transition table says of the state before. -/
theorem runStateTransitions : Obligations.RunStateTransitions := by
  unfold Obligations.RunStateTransitions
  intro s t h
  have hchange := step_runChange h
  generalize t.run = r at hchange ⊢
  cases hchange with
  | same => simp +contextual
  | reset hturn => simp [hturn]
  | stop hturn hr => rcases hr with hr | hr <;> simp [hturn, hr]
  | fault he hr => simp [he, hr]
  | wait he hr hw hi => simp [he, hr, hw, hi]
  | keyTaken he hr hv => simp [he, hr, hv]
  | selfJump he hr hdetector hw hi hself => simp [he, hr, hdetector, hw, hi, hself]

/-! A run that has ended -/

theorem runEnded_iff : runEnded s = true ↔ s.run = .halt ∨ s.run = .fault := by
  simp [runEnded]

theorem isReset_of_noReset_cons {e : HostEvent} {rest : List Turn} (h : noReset (.host e :: rest) = true) :
    isReset e = false := by
  rw [noReset, List.all_cons, Bool.and_eq_true] at h
  simpa using h.1

theorem noReset_tail {ts : List Turn} (h : noReset ts = true) : noReset ts.tail = true := by
  rw [noReset, List.all_eq_true] at h ⊢
  exact fun u hu => h u (List.mem_of_mem_tail hu)

theorem KeepsBut.turns {rs : List Reg} {ps : List Part} (h : KeepsBut rs ps s t) (hp : Part.turns ∉ ps) :
    t.turns = s.turns := by
  obtain ⟨-, -, -, -, -, -, -, -, -, -, -, -, -, -, hturns, -⟩ := h
  exact hturns hp

theorem KeepsBut.mono {rs : List Reg} {ps qs : List Part} (h : KeepsBut rs ps s t) (hsub : ps ⊆ qs) :
    KeepsBut rs qs s t := by
  have hout (p : Part) (hp : p ∉ qs) : p ∉ ps := fun hin => hp (hsub hin)
  simp_all [KeepsBut]

/-- What two steps keep one after the other. -/
theorem KeepsBut.trans {rs : List Reg} {ps : List Part} {u : State} (h : KeepsBut rs ps s t)
    (h' : KeepsBut rs ps t u) : KeepsBut rs ps s u := by
  simp_all [KeepsBut]

theorem turnTaken_keeps (s : State) : KeepsBut [] [.turns] s (turnTaken s) := by
  simp [KeepsBut]

/-- Once the run has ended, with no request pending, a host event that is no reset moves the key vector, the clock
and the polls alone: there is nothing left for a stop to halt or a key to satisfy. -/
theorem hostStep_ended {e : HostEvent} (he : isReset e = false) (hend : runEnded s = true)
    (hreq : s.reqPending = false) : KeepsBut [] [.keys, .clock, .polls] s (hostStep e s) := by
  cases e with
  | keyDown k => simp [hostStep, keyDown, hreq, KeepsBut, State.reg]
  | keyUp k => simp [hostStep, keyUp, KeepsBut, State.reg]
  | stop =>
    rw [hostStep, stopRun_of_ended (runEnded_iff.mp hend)]
    exact .refl s
  | reset image fill => cases he
  | resetText text fill => cases he
  | pollDt => simp [hostStep, pollDt, KeepsBut, State.reg]
  | pollSt => simp [hostStep, pollSt, KeepsBut, State.reg]

/-- One step of an ended run with no reset next. -/
theorem step_ended (hend : runEnded s = true) (hreq : s.reqPending = false) (hno : noReset s.turns = true) :
    ∃ t, step s = .next t ∧ t.turns = s.turns.tail ∧ KeepsBut [] [.keys, .clock, .polls, .turns] s t := by
  rcases turn_cases s with hengine | ⟨e, rest, hhost⟩
  · exact ⟨turnTaken s, (step_engineNext hengine).trans (engineStep_ended hend), rfl,
      (turnTaken_keeps s).mono (by simp)⟩
  · have he : isReset e = false := isReset_of_noReset_cons (hhost ▸ hno)
    have hkeeps : KeepsBut [] [.keys, .clock, .polls] (turnTaken s) _ := hostStep_ended he hend hreq
    exact ⟨_, step_host hhost, hkeeps.turns (by simp),
      ((turnTaken_keeps s).mono (by simp)).trans (hkeeps.mono (by simp))⟩

/-- Any number of steps: the run state, the channel and the list of turns stay as `step_ended` asks. -/
theorem run_ended (steps : Nat) (hend : runEnded s = true) (hreq : s.reqPending = false)
    (hno : noReset s.turns = true) :
    ∃ t, core.run steps s = .next t ∧ KeepsBut [] [.keys, .clock, .polls, .turns] s t := by
  induction steps generalizing s with
  | zero => exact ⟨s, core_run_zero s, .refl s⟩
  | succ steps ih =>
    obtain ⟨u, hstep, hturns, hkeeps⟩ := step_ended hend hreq hno
    have hend' : runEnded u = true := by rwa [runEnded, hkeeps.run (by simp)]
    have hreq' : u.reqPending = false := (hkeeps.channel (by simp)).1.trans hreq
    obtain ⟨t, hrun, hkeeps'⟩ := ih hend' hreq' (hturns ▸ noReset_tail hno)
    exact ⟨t, (core_run_succ hstep steps).trans hrun, hkeeps.trans hkeeps'⟩

/-- Settles O60: a clean channel has no request pending once the run has ended. -/
theorem endedRunStaysEnded : Obligations.EndedRunStaysEnded := by
  unfold Obligations.EndedRunStaysEnded
  rintro s steps hend ⟨-, hclear, -⟩ hno
  have hne : s.run ≠ .waitKey := by rcases runEnded_iff.mp hend with h | h <;> simp [h]
  exact run_ended steps hend (hclear hne).1 hno

end Sys2Proof.Machine
end

section
/-! SUPPORT. Control flow (41_control_flow.md): calls and returns with the stack they share, the jumps and the
skips. -/

namespace Sys2Proof.Machine

variable {s t : State}

/-! Calls and returns -/

/-- R141 with room on the stack. -/
theorem exec_call_of_lt (nnn : BitVec 12) (h : s.sp.val < 16) :
    exec (.call nnn) s = .next { s with
      stack := s.stack.set s.sp.val (s.pc + 2#16) h
      sp := ⟨s.sp.val + 1, Nat.succ_lt_succ h⟩
      pc := nnn.setWidth 16 } := by
  obtain ⟨u, hu, he⟩ := exec_call_of_faultOf_none (nnn := nnn) (if_neg (Nat.ne_of_lt h))
  cases (s.push_of_lt _ h).symm.trans hu
  exact he

/-- R142 with an entry in use: the old top goes to pc and stays behind. -/
theorem exec_ret_of_ne_zero (h : s.sp.val ≠ 0) :
    ∃ t, exec .ret s = .next t ∧ t.sp.val = s.sp.val - 1 ∧ s.stack[s.sp.val - 1]? = some t.pc ∧
      t.stack = s.stack ∧ KeepsBut [] [.pc, .stack] s t := by
  obtain ⟨t, ht, he⟩ := exec_ret_of_faultOf_none (if_neg h)
  obtain ⟨u, hu, hsp, hpc, hs⟩ := s.popToPc_of_pos (Nat.pos_of_ne_zero h)
  cases hu.symm.trans ht
  have htop : s.stack[s.sp.val - 1]? = some t.pc := by
    rw [hpc]
    exact Vector.getElem?_eq_getElem _
  exact ⟨t, he, hsp, htop, (congrArg State.stack hs :), .popToPc ht⟩

/-- What the body of a call finds: one entry more, which is the return address. -/
theorem exec_call_leaves (nnn : BitVec 12) (h : s.sp.val < 16) :
    ∃ t, exec (.call nnn) s = .next t ∧ t.sp.val = s.sp.val + 1 ∧ t.stack[s.sp.val]? = some (s.pc + 2#16) ∧
      (∀ k, k < s.sp.val → t.stack[k]? = s.stack[k]?) ∧ KeepsBut [] [.pc, .stack] s t := by
  have he := exec_call_of_lt nnn h
  exact ⟨_, he, rfl, Vector.getElem?_set_self h, fun k hk => Vector.getElem?_set_ne h (Nat.ne_of_gt hk),
    (exec_frame he (if_neg (Nat.ne_of_lt h))).mono (by simp [partsWritten])⟩

/-! Nested calls and returns -/

theorem runAll_cons {i : Instr} (h : exec i s = .next t) (rest : List Instr) :
    runAll (i :: rest) s = runAll rest t := by
  simp only [runAll, h]

/-- Instructions run to a next state, and more of them from there. -/
theorem runAll_append {is : List Instr} (h : runAll is s = .next t) (rest : List Instr) :
    runAll (is ++ rest) s = runAll rest t := by
  induction is generalizing s with
  | nil => cases h; rfl
  | cons i is ih =>
    cases he : exec i s with
    | next u => exact (runAll_cons he _).trans (ih ((runAll_cons he is).symm.trans h))
    | fault r => simp [runAll, he] at h
    | refused r => simp [runAll, he] at h

/-- From `s` to `t` sp, the live stack entries and everything but pc and the stack are unchanged. -/
def KeepsLiveStack (s t : State) : Prop :=
  t.sp = s.sp ∧ (∀ k, k < s.sp.val → t.stack[k]? = s.stack[k]?) ∧ KeepsBut [] [.pc, .stack] s t

/-- A call, a body that keeps the live stack, and a return: the return finds the address the call left. -/
theorem runAll_call_body_ret (nnn : BitVec 12) (hroom : s.sp.val < 16) {body : List Instr}
    (hbody : ∀ u : State, u.sp.val = s.sp.val + 1 → ∃ v, runAll body u = .next v ∧ KeepsLiveStack u v) :
    ∃ t, runAll (.call nnn :: (body ++ [.ret])) s = .next t ∧ t.pc = s.pc + 2#16 ∧ KeepsLiveStack s t := by
  obtain ⟨u, hcall, hu, htop, hbelow, hkeepsCall⟩ := exec_call_leaves nnn hroom
  obtain ⟨v, hrun, hsp, hlive, hkeepsBody⟩ := hbody u hu
  have hv : v.sp.val = s.sp.val + 1 := by rw [hsp, hu]
  obtain ⟨t, hret, ht, hpc, hstack, hkeepsRet⟩ := exec_ret_of_ne_zero (s := v) (by omega)
  refine ⟨t, ?_, ?_, Fin.ext (by omega), fun k hk => ?_, (hkeepsCall.trans hkeepsBody).trans hkeepsRet⟩
  · rw [runAll_cons hcall, runAll_append hrun, runAll_cons hret, runAll]
  · rw [hv, Nat.add_sub_cancel, hlive _ (by omega), htop] at hpc
    exact (Option.some.inj hpc).symm
  · rw [hstack, hlive k (by omega), hbelow k hk]

/-- Calls that fit the stack and as many returns, each call's return enclosing those after it. -/
theorem runAll_calls_rets (targets : List (BitVec 12)) (hroom : s.sp.val + targets.length ≤ 16) :
    ∃ t, runAll (targets.map Instr.call ++ List.replicate targets.length Instr.ret) s = .next t ∧
      t.pc = (if targets = [] then s.pc else s.pc + 2#16) ∧ KeepsLiveStack s t := by
  induction targets generalizing s with
  | nil => exact ⟨s, rfl, rfl, rfl, fun _ _ => rfl, .refl s⟩
  | cons nnn targets ih =>
    rw [List.length_cons] at hroom
    obtain ⟨t, hrun, hpc, hkeeps⟩ := runAll_call_body_ret (s := s) nnn (by omega)
      fun u hu => (ih (s := u) (by omega)).imp fun _ ⟨hrun, _, hkeeps⟩ => ⟨hrun, hkeeps⟩
    exact ⟨t, by simpa [List.replicate_succ'] using hrun, by simpa using hpc, hkeeps⟩

/-- Settles O20, by induction on the calls: the first call and the last return enclose the others. -/
theorem nestedCallsReturn : Obligations.NestedCallsReturn := by
  unfold Obligations.NestedCallsReturn
  intro targets s hroom
  obtain ⟨t, hrun, hpc, hsp, hlive, hkeeps⟩ := runAll_calls_rets targets hroom
  exact ⟨t, hrun, hsp, hpc, hlive, hkeeps⟩

/-! CALL and RET on both sides of their check -/

theorem exec_call_of_full (nnn : BitVec 12) (h : s.sp.val = 16) :
    exec (.call nnn) s = raise .stackOverflow (some (encode (.call nnn))) none s := by
  simp only [exec, execCall, s.push_full _ h]

theorem exec_ret_of_empty (h : s.sp.val = 0) :
    exec .ret s = raise .stackUnderflow (some (encode .ret)) none s := by
  simp only [exec, execRet, s.popToPc_empty h]

/-- Settles O15: with room the push goes through, and no 12-bit target fails the check after it; on a full
stack there is no push. -/
theorem callPushesOrOverflows : Obligations.CallPushesOrOverflows := by
  unfold Obligations.CallPushesOrOverflows
  intro nnn s
  exact ⟨decodeOfEncode (.call nnn) rfl, Nat.le_of_lt_succ nnn.isLt, exec_call_of_lt nnn, exec_call_of_full nnn⟩

/-- Settles O16: a live entry is popped, and with none there is nothing to pop. -/
theorem retPopsOrUnderflows : Obligations.RetPopsOrUnderflows := by
  unfold Obligations.RetPopsOrUnderflows
  intro s
  exact ⟨decodeOfEncode .ret rfl, exec_ret_of_ne_zero, exec_ret_of_empty⟩

/-! Jumps -/

/-- Settles O14: the two tests nested in each other are the one condition of R126. -/
theorem jpJumpsOrHalts : Obligations.JpJumpsOrHalts := by
  unfold Obligations.JpJumpsOrHalts
  intro nnn s
  refine ⟨decodeOfEncode (.jp nnn) rfl, ?_⟩
  rw [exec, execJp, ← ite_and]
  exact (apply_ite Host.Outcome.next _ _ _).symm

/-- Settles O17: 4095 and 255 together stay below 65536. -/
theorem jpV0AddsV0 : Obligations.JpV0AddsV0 := by
  unfold Obligations.JpV0AddsV0
  intro nnn s
  refine ⟨decodeOfEncode (.jpV0 nnn) rfl, _, rfl, ?_, (KeepsBut.refl s).jump _⟩
  have hnnn := nnn.isLt
  have hv0 := (s.reg 0#4).isLt
  rw [State.jump_pc, BitVec.toNat_add, toNat_zextAddr, toNat_zextByte]
  omega

/-! Skips -/

/-- R148, with the condition a proposition. -/
theorem State.skipIf_eq {c : Bool} {p : Prop} [Decidable p] (h : c = true ↔ p) (s : State) :
    s.skipIf c = { s with pc := if p then s.pc + 4#16 else s.pc + 2#16 } := by
  simp only [State.skipIf, h]

/-- Settles O18: both skips end as `skipIf` does, whose condition the byte comparison decides. -/
theorem skipsOnImmediate : Obligations.SkipsOnImmediate := by
  unfold Obligations.SkipsOnImmediate
  intro x nn s
  exact ⟨decodeOfEncode (.seImm x nn) rfl, decodeOfEncode (.sneImm x nn) rfl,
    congrArg _ (s.skipIf_eq beq_iff_eq), congrArg _ (s.skipIf_eq bne_iff_ne)⟩

/-- Settles O19, as for an immediate, with Vy in its place. -/
theorem skipsOnRegister : Obligations.SkipsOnRegister := by
  unfold Obligations.SkipsOnRegister
  intro x y s
  exact ⟨decodeOfEncode (.seReg x y) rfl, decodeOfEncode (.sneReg x y) rfl,
    congrArg _ (s.skipIf_eq beq_iff_eq), congrArg _ (s.skipIf_eq bne_iff_ne)⟩

end Sys2Proof.Machine
end

section
/-! SUPPORT. Register operations (42_register_ops.md): what a result without a flag and a result with one leave, and
what each flag says. -/

namespace Sys2Proof.Machine

variable (s : State) (x : Reg) (b : Byte)

/-! A result without a flag (R160 to R165) -/

theorem State.reg_setReg_self : (s.setReg x b).reg x = b := by
  rw [State.reg_setReg, if_pos rfl]

theorem keepsBut_setReg_advance : KeepsBut [x] [.pc] s (s.setReg x b).advance :=
  ((KeepsBut.refl s).setReg x b).advance

/-- Settles O21: the value written is the immediate, or the old Vy. -/
theorem registerLoads : Obligations.RegisterLoads := by
  unfold Obligations.RegisterLoads
  intro x y nn s
  constructor
  · exact ⟨decodeOfEncode (.ldImm x nn) rfl, _, rfl, s.reg_setReg_self x _, rfl, keepsBut_setReg_advance s x _⟩
  · exact ⟨decodeOfEncode (.ldReg x y) rfl, _, rfl, s.reg_setReg_self x _, rfl, keepsBut_setReg_advance s x _⟩

/-- Settles O22: the value written is the sum modulo 256, and only Vx is written. -/
theorem addImmediateWraps : Obligations.AddImmediateWraps := by
  unfold Obligations.AddImmediateWraps
  intro x nn s
  refine ⟨decodeOfEncode (.addImm x nn) rfl, _, rfl, ?_, rfl, keepsBut_setReg_advance s x _⟩
  rw [State.reg_advance, State.reg_setReg_self, toNat_addByte]

/-- Settles O23: the value written is the bit vector operation, which works bit by bit. -/
theorem bitwiseOperations : Obligations.BitwiseOperations := by
  unfold Obligations.BitwiseOperations
  intro x y s
  refine ⟨⟨decodeOfEncode (.orReg x y) rfl, _, rfl, fun k => ?_, rfl, keepsBut_setReg_advance s x _⟩,
    ⟨decodeOfEncode (.andReg x y) rfl, _, rfl, fun k => ?_, rfl, keepsBut_setReg_advance s x _⟩,
    ⟨decodeOfEncode (.xorReg x y) rfl, _, rfl, fun k => ?_, rfl, keepsBut_setReg_advance s x _⟩⟩
  · rw [State.reg_advance, State.reg_setReg_self, BitVec.getLsbD_or]
  · rw [State.reg_advance, State.reg_setReg_self, BitVec.getLsbD_and]
  · rw [State.reg_advance, State.reg_setReg_self, BitVec.getLsbD_xor]

/-! A result with a flag (R166 to R170) -/

theorem carryOut_iff (a b : Byte) : carryOut a b = true ↔ a.toNat + b.toNat > 255 := decide_eq_true_iff

theorem noBorrow_iff (a b : Byte) : noBorrow a b = true ↔ a.toNat ≥ b.toNat := decide_eq_true_iff

theorem lowBit_iff (a : Byte) : lowBit a = true ↔ a.toNat % 2 = 1 := by
  rw [lowBit, BitVec.getLsbD, Nat.testBit_zero, decide_eq_true_iff]

theorem highBit_iff (a : Byte) : highBit a = true ↔ a.toNat ≥ 128 := by
  rw [highBit, ← BitVec.msb_eq_getLsbD_last, BitVec.msb_eq_decide, decide_eq_true_iff]

/-- What a result and its flag leave: VF is the flag whatever the destination (R172), any other destination holds the
result, and the rest is kept. -/
theorem setResultAndFlag_advance_leaves {f : Bool} {p : Prop} [Decidable p] {n : Nat}
    (hf : f = true ↔ p) (hb : b.toNat = n) :
    ∃ t, (.next (s.setResultAndFlag x b f).advance : Result) = .next t ∧
      t.reg vf = (if p then 1#8 else 0#8) ∧ (x ≠ vf → (t.reg x).toNat = n) ∧
      t.pc = s.pc + 2#16 ∧ KeepsBut [x, vf] [.pc] s t := by
  refine ⟨_, rfl, ?_, fun hx => ?_, rfl, ((KeepsBut.refl s).setResultAndFlag x b f).advance⟩
  · rw [State.reg_advance, State.reg_setResultAndFlag, if_pos rfl, flagByte_eq_ite]
    simp only [hf]
  · rw [State.reg_advance, State.reg_setResultAndFlag, if_neg hx, if_pos rfl, hb]

/-- Settles O24: the flag is the carry out of the sum. -/
theorem addWithCarryOut : Obligations.AddWithCarryOut := by
  unfold Obligations.AddWithCarryOut
  intro x y s
  exact ⟨decodeOfEncode (.addReg x y) rfl,
    setResultAndFlag_advance_leaves s x _ (carryOut_iff (s.reg x) (s.reg y)) (toNat_addByte _ _)⟩

/-- Settles O25: the flag is that the minuend, Vx or Vy, is not below the subtrahend. -/
theorem subtractWithNoBorrow : Obligations.SubtractWithNoBorrow := by
  unfold Obligations.SubtractWithNoBorrow
  intro x y s
  constructor
  · exact ⟨decodeOfEncode (.sub x y) rfl,
      setResultAndFlag_advance_leaves s x _ (noBorrow_iff (s.reg x) (s.reg y)) (toNat_subByte _ _)⟩
  · exact ⟨decodeOfEncode (.subn x y) rfl,
      setResultAndFlag_advance_leaves s x _ (noBorrow_iff (s.reg y) (s.reg x)) (toNat_subByte _ _)⟩

/-- Settles O26: the flag is the bit of Vx shifted out; Vy is not read. -/
theorem shiftsByOne : Obligations.ShiftsByOne := by
  unfold Obligations.ShiftsByOne
  intro x y s
  constructor
  · exact ⟨decodeOfEncode (.shr x y) rfl,
      setResultAndFlag_advance_leaves s x _ (lowBit_iff (s.reg x)) (toNat_halfByte _)⟩
  · exact ⟨decodeOfEncode (.shl x y) rfl,
      setResultAndFlag_advance_leaves s x _ (highBit_iff (s.reg x)) (toNat_doubleByte _)⟩

end Sys2Proof.Machine
end

section
/-! SUPPORT. Memory and addressing (43_memory_addressing.md): the three settings of I, and the three transfers on both
sides of their range check. -/

namespace Sys2Proof.Machine

variable {s : State} {x : Reg}

/-! Setting I (R180 to R182) -/

@[simp] theorem toNat_digitSprite (b : Byte) : (digitSprite b).toNat = 0x100 + 5 * (b.toNat % 16) := by
  simp only [digitSprite, Config.fontBase, Config.fontStride, BitVec.toNat_ofNat]
  omega

/-- Settles O28: what each of the three makes of its operand, and the frame of its row. -/
theorem settingTheAddressRegister : Obligations.SettingTheAddressRegister := by
  unfold Obligations.SettingTheAddressRegister
  intro nnn x s
  refine ⟨⟨decodeOfEncode (.ldI nnn) rfl, _, rfl, toNat_zextAddr nnn, rfl, exec_frame (i := .ldI nnn) rfl rfl⟩,
    ⟨decodeOfEncode (.addI x) rfl, _, rfl, ?_, rfl, exec_frame (i := .addI x) rfl rfl⟩,
    ⟨decodeOfEncode (.ldF x) rfl, _, rfl, toNat_digitSprite _, rfl, exec_frame (i := .ldF x) rfl rfl⟩⟩
  rw [State.advance_i, BitVec.toNat_add, toNat_zextByte]

/-! The decimal digits (R183) -/

/-- The `k`-th byte of a run of writes inside memory. -/
theorem Memory.read_writeBytes_add {m : Memory} (hm : m.wf = true) {a k : Nat} {bs : List Byte}
    (ha : a + bs.length ≤ Config.memSize) (hk : k < bs.length) :
    (m.writeBytes a bs).read (a + k) = bs.getD k 0#8 := by
  rw [Memory.read_writeBytes hm ha, if_pos (by omega), Nat.add_sub_cancel_left]

/-- The digits fit their bytes. -/
theorem map_toNat_bcdDigits (b : Byte) :
    (bcdDigits b).map BitVec.toNat = [b.toNat / 100, b.toNat / 10 % 10, b.toNat % 10] := by
  have hb := b.isLt
  simp only [bcdDigits, List.map_cons, List.map_nil, BitVec.toNat_ofNat, List.cons.injEq, and_true]
  omega

/-- What the BCD store leaves at I + k is the k-th digit. -/
theorem read_of_exec_ldB {t : State} (hm : s.mem.wf = true) (hi : s.i.toNat + 2 ≤ 4095)
    (he : exec (.ldB x) s = .next t) {k : Nat} (hk : k < 3) :
    (t.mem.read (s.i.toNat + k)).toNat =
      [(s.reg x).toNat / 100, (s.reg x).toNat / 10 % 10, (s.reg x).toNat % 10].getD k 0 := by
  have hf : faultOf (.ldB x) s = none := if_neg (by omega)
  have hfits : s.i.toNat + (bcdDigits (s.reg x)).length ≤ Config.memSize :=
    show s.i.toNat + 3 ≤ 4096 by omega
  cases (exec_ldB_of_faultOf_none hf).symm.trans he
  calc ((s.mem.writeBytes s.i.toNat (bcdDigits (s.reg x))).read (s.i.toNat + k)).toNat
      = ((bcdDigits (s.reg x)).getD k 0#8).toNat := by rw [Memory.read_writeBytes_add hm hfits hk]
    _ = ((bcdDigits (s.reg x)).map BitVec.toNat).getD k 0 := (List.getD_map ..).symm
    _ = _ := by rw [map_toNat_bcdDigits]

theorem exec_ldB_of_gt (h : s.i.toNat + 2 > 4095) :
    exec (.ldB x) s = raise .addrBcd (some (encode (.ldB x))) (some s.i) s :=
  if_pos ((s.beyondMemory_iff 2).mpr h)

/-- Settles O29: in range the digits are read back and the frame of R183 holds; out of range nothing is written. -/
theorem bcdStoresThreeDigits : Obligations.BcdStoresThreeDigits := by
  unfold Obligations.BcdStoresThreeDigits
  intro x s
  refine ⟨decodeOfEncode (.ldB x) rfl, fun hi => ?_, exec_ldB_of_gt⟩
  have hf : faultOf (.ldB x) s = none := if_neg (by omega)
  obtain ⟨t, he, hpc, hkeeps, houtside, -⟩ := addressingFrame (.ldB x) s rfl hf
  refine ⟨t, he, fun hm => ⟨?_, ?_, ?_⟩, houtside x rfl, hpc, hkeeps⟩
  · exact read_of_exec_ldB hm hi he (k := 0) (by omega)
  · exact read_of_exec_ldB hm hi he (k := 1) (by omega)
  · exact read_of_exec_ldB hm hi he (k := 2) (by omega)

/-! The block transfers (R184 to R186) -/

theorem exec_storeRegs_of_gt (h : s.i.toNat + x.toNat > 4095) :
    exec (.storeRegs x) s = raise .addrStore (some (encode (.storeRegs x))) (some s.i) s :=
  if_pos ((s.beyondMemory_iff x.toNat).mpr h)

theorem exec_loadRegs_of_gt (h : s.i.toNat + x.toNat > 4095) :
    exec (.loadRegs x) s = raise .addrLoad (some (encode (.loadRegs x))) (some s.i) s :=
  if_pos ((s.beyondMemory_iff x.toNat).mpr h)

/-- Settles O30: in range the registers are read back and the frame of R184 holds; out of range nothing is written. -/
theorem blockStore : Obligations.BlockStore := by
  unfold Obligations.BlockStore
  intro x s
  refine ⟨decodeOfEncode (.storeRegs x) rfl, fun hi => ?_, exec_storeRegs_of_gt⟩
  have hf : faultOf (.storeRegs x) s = none := if_neg (by omega)
  obtain ⟨t, he, hpc, hkeeps, -, houtside⟩ := addressingFrame (.storeRegs x) s rfl hf
  exact ⟨t, he, fun hm r hr => read_of_exec_storeRegs hm hi he hr, houtside x rfl, hpc, hkeeps⟩

/-- A block load inside memory: V0..Vx from memory, and nothing else but pc differs. -/
theorem exec_loadRegs_of_le (h : s.i.toNat + x.toNat ≤ 4095) :
    ∃ t, exec (.loadRegs x) s = .next t ∧
      (∀ r : Reg, t.reg r = if r.toNat ≤ x.toNat then s.mem.read (s.i.toNat + r.toNat) else s.reg r) ∧
      t = { s with v := t.v, pc := s.pc + 2#16 } :=
  ⟨_, exec_loadRegs_of_faultOf_none (if_neg (by omega)), fun r => reg_regsLoaded x r s, rfl⟩

/-- Settles O31: a load in range, and the fault out of range. -/
theorem blockLoad : Obligations.BlockLoad := by
  unfold Obligations.BlockLoad
  intro x s
  exact ⟨decodeOfEncode (.loadRegs x) rfl, exec_loadRegs_of_le, exec_loadRegs_of_gt⟩

/-- Settles O32: the store keeps I, so the load reads the bytes the store wrote. -/
theorem loadAfterStoreRestores : Obligations.LoadAfterStoreRestores := by
  unfold Obligations.LoadAfterStoreRestores
  intro x s t u hm hi he hmem hI
  have hkeepsI : t.i = s.i := by
    cases (exec_storeRegs_of_faultOf_none (x := x) (if_neg (by omega))).symm.trans he
    rfl
  have hui : u.i = s.i := hI.trans hkeepsI
  obtain ⟨w, hload, hreg, hw⟩ := exec_loadRegs_of_le (s := u) (x := x) (by rwa [hui])
  refine ⟨w, hload, (congrArg State.i hw).trans hui, fun r hr => ?_⟩
  rw [hreg, if_pos hr, hmem, hui, read_of_exec_storeRegs hm hi he hr]

end Sys2Proof.Machine
end

section
/-! SUPPORT. The random byte (44_random.md). -/

namespace Sys2Proof.Machine

/-- Settles O36: what is written is the byte of the draw count before it grows, whatever `Config.rnd` is; the rest
is the frame of the row. -/
theorem randomByteIsMasked : Obligations.RandomByteIsMasked := by
  unfold Obligations.RandomByteIsMasked
  intro x nn s
  have hreg : (rndWith s.rndByte x nn s.drawn).reg x = Config.rnd s.rndDraws &&& nn :=
    s.drawn.reg_setReg_self x (s.rndByte &&& nn)
  exact ⟨decodeOfEncode (.rnd x nn) rfl, _, rfl, hreg, rfl, rfl, exec_frame (i := .rnd x nn) rfl rfl⟩

end Sys2Proof.Machine
end

section
/-! SUPPORT. The drawing instructions (45_drawing.md): what a draw that raises no fault leaves in the framebuffer and in
VF, and what a second one makes of it. -/

namespace Sys2Proof.Machine

/-- Settles O37: what is drawn is the blank framebuffer, and the rest is the frame of the row. -/
theorem clsClearsEveryPixel : Obligations.ClsClearsEveryPixel := by
  unfold Obligations.ClsClearsEveryPixel
  exact fun _ => ⟨decodeOfEncode .cls rfl, _, rfl, Frame.pixel_blank, rfl, rfl, exec_frame (i := .cls) rfl rfl⟩

theorem flagByte_eq_one_iff {f : Bool} : flagByte f = 1#8 ↔ f = true := by cases f <;> decide

section
variable {x y : Reg} {n : BitVec 4} {s t : State}

/-- A draw flips the pixels its sprite lights, and no other (R196). -/
theorem pixel_of_exec_drw (hf : faultOf (.drw x y n) s = none) (he : exec (.drw x y n) s = .next t) (py : Fin 32)
    (px : Fin 64) : t.fb.pixel py px = true ↔ (s.fb.pixel py px = true ↔ ¬SpriteLights s x y n py px) := by
  cases (exec_drw_of_faultOf_none hf).symm.trans he
  exact pixel_spriteBlit s x y n py px

/-- VF tells whether the sprite lit a pixel that was set (R196). -/
theorem reg_vf_of_exec_drw (hf : faultOf (.drw x y n) s = none) (he : exec (.drw x y n) s = .next t) :
    t.reg vf = 1#8 ↔ ∃ py px, SpriteLights s x y n py px ∧ s.fb.pixel py px = true := by
  cases (exec_drw_of_faultOf_none hf).symm.trans he
  rw [State.reg_advance, State.reg_present, State.reg_setFlag, if_pos rfl, flagByte_eq_one_iff, collision_spriteBlit]

theorem reg_vf_of_exec_drw_of_unset (hf : faultOf (.drw x y n) s = none) (he : exec (.drw x y n) s = .next t)
    (hunset : ∀ py px, SpriteLights s x y n py px → s.fb.pixel py px = false) : t.reg vf = 0#8 := by
  have hne : t.reg vf ≠ 1#8 := by
    rw [Ne, reg_vf_of_exec_drw hf he]
    rintro ⟨py, px, hlit, hset⟩
    exact Bool.false_ne_true ((hunset py px hlit).symm.trans hset)
  obtain ⟨f, hvf⟩ := reg_vf_of_writesFlag rfl he hf
  rw [hvf] at hne ⊢
  exact (flagByte_eq_zero_or_one f).resolve_right hne

theorem exec_drw_of_gt (hn : n.toNat ≠ 0) (hi : s.i.toNat + n.toNat - 1 > 4095) :
    exec (.drw x y n) s = raise .addrSprite (some (encode (.drw x y n))) (some s.i) s :=
  if_pos ((drw_outOfMemory_iff n s).mpr ⟨Nat.pos_of_ne_zero hn, hi⟩)

/-- The sprite and where it lands depend on memory, I, Vx and Vy alone. -/
theorem spriteLights_congr (hmem : t.mem = s.mem) (hi : t.i = s.i) (hx : t.reg x = s.reg x) (hy : t.reg y = s.reg y)
    (py : Fin 32) (px : Fin 64) : SpriteLights t x y n py px ↔ SpriteLights s x y n py px := by
  simp only [SpriteLights, hmem, hi, hx, hy]

theorem faultOf_drw_congr (hi : t.i = s.i) : faultOf (.drw x y n) t = faultOf (.drw x y n) s := by
  simp only [faultOf, hi]
end

/-- Settles O38: the draw inside memory by what its blit does, and the fault outside it. -/
theorem drawFlipsTheSpritePixels : Obligations.DrawFlipsTheSpritePixels := by
  unfold Obligations.DrawFlipsTheSpritePixels
  intro x y n s
  refine ⟨decodeOfEncode (.drw x y n) rfl, fun hin => ?_, exec_drw_of_gt⟩
  have hf : faultOf (.drw x y n) s = none := if_neg (by omega)
  have he := exec_drw_of_faultOf_none hf
  exact ⟨_, he, pixel_of_exec_drw hf he, (reg_vf_of_exec_drw hf he).mpr, reg_vf_of_exec_drw_of_unset hf he, rfl, rfl,
    exec_frame he hf⟩

/-- Settles O39: the first draw keeps the sprite and where it lands, so the second flips the same pixels back, and
finds set exactly those the first turned on. -/
theorem drawingTwiceRestores : Obligations.DrawingTwiceRestores := by
  unfold Obligations.DrawingTwiceRestores
  intro x y n s t hf he hx hy
  obtain ⟨hmem, hi⟩ : t.mem = s.mem ∧ t.i = s.i := by
    cases (exec_drw_of_faultOf_none hf).symm.trans he
    exact ⟨rfl, rfl⟩
  have hlights := spriteLights_congr (n := n) hmem hi hx hy
  have hfirst := pixel_of_exec_drw hf he
  have hft : faultOf (.drw x y n) t = none := (faultOf_drw_congr hi).trans hf
  obtain ⟨u, hu, -⟩ := exec_next_of_faultOf_none hft
  refine ⟨u, hu, Frame.ext_pixel fun py px => ?_, ?_⟩
  · rw [Bool.eq_iff_iff, pixel_of_exec_drw hft hu, hfirst, hlights]
    tauto
  · rw [reg_vf_of_exec_drw hft hu]
    refine exists_congr fun py => exists_congr fun px => ?_
    rw [hlights, hfirst, ← Bool.not_eq_true]
    tauto

end Sys2Proof.Machine
end

section
/-! SUPPORT. Input (46_input.md): what a key event does to the key vector and the channel, the skips on a key, and the
blocking read with the key events around it. -/

namespace Sys2Proof.Machine

variable {s t : State}

/-! Key events (R212, R213) -/

theorem pressed_setKey (k j : Key) (b : Bool) (s : State) :
    { s with keys := s.keys.set k.toNat b k.isLt }.pressed j = if j = k then b else s.pressed j := by
  simp only [State.pressed, Vector.getElem_set, BitVec.toNat_inj, eq_comm]

theorem keyDown_of_pending (k : Key) (h : s.reqPending = true) :
    keyDown k s = { s with
      keys := s.keys.set k.toNat true k.isLt, respKey := k, respValid := true, reqPending := false } := if_pos h

theorem keyDown_of_not_pending (k : Key) (h : s.reqPending = false) :
    keyDown k s = { s with keys := s.keys.set k.toNat true k.isLt } := if_neg (by simp [h])

theorem keyDown_waitX (k : Key) (s : State) : (keyDown k s).waitX = s.waitX := by
  unfold keyDown
  split <;> rfl

theorem pressed_keyDown (k j : Key) (s : State) : (keyDown k s).pressed j = (j == k || s.pressed j) := by
  have hkeys : (keyDown k s).pressed j = { s with keys := s.keys.set k.toNat true k.isLt }.pressed j := by
    unfold keyDown
    split <;> rfl
  rw [hkeys, pressed_setKey]
  by_cases hj : j = k <;> simp [hj]

theorem pressed_keyUp (k j : Key) (s : State) : (keyUp k s).pressed j = (j != k && s.pressed j) := by
  rw [keyUp, pressed_setKey]
  by_cases hj : j = k <;> simp [hj]

theorem keepsBut_setKey (k : Key) (b : Bool) (s : State) :
    KeepsBut [] [.keys] s { s with keys := s.keys.set k.toNat b k.isLt } := by
  simp [KeepsBut, State.reg]

/-- With a request pending the channel moves too; without one the key vector alone. -/
theorem keepsBut_keyDown (k : Key) (s : State) : KeepsBut [] [.keys, .channel] s (keyDown k s) := by
  cases hreq : s.reqPending with
  | true =>
    rw [keyDown_of_pending k hreq]
    simp [KeepsBut, State.reg]
  | false =>
    rw [keyDown_of_not_pending k hreq]
    exact (keepsBut_setKey k true s).mono (by simp)

/-- Taking the turn and what the agent then does, as one frame. -/
theorem KeepsBut.of_turnTaken {rs : List Reg} {ps : List Part} (h : KeepsBut rs ps (turnTaken s) t) :
    KeepsBut rs (ps ++ [.turns]) s t := by
  simp_all [KeepsBut]

/-- Settles O42: the turn is the key event's, whatever the run state; a key-down looks at the request alone. -/
theorem keyEvents : Obligations.KeyEvents := by
  unfold Obligations.KeyEvents
  intro k rest s
  constructor
  · intro hts
    have hkeeps := keepsBut_keyDown k (turnTaken s)
    have hturns : (keyDown k (turnTaken s)).turns = rest := by rw [hkeeps.turns (by simp), turnTaken_turns, hts]; rfl
    refine ⟨_, step_host hts, hturns, fun j => pressed_keyDown k j _, fun hreq => ?_, fun hreq => ?_,
      keyDown_waitX k _, hkeeps.of_turnTaken⟩
    · rw [hostStep, keyDown_of_pending (s := turnTaken s) k hreq]
      exact ⟨rfl, rfl, rfl⟩
    · rw [hostStep, keyDown_of_not_pending (s := turnTaken s) k hreq]
      exact ⟨rfl, rfl, hreq⟩
  · intro hts
    have hturns : (turnTaken s).turns = rest := by rw [turnTaken_turns, hts]; rfl
    exact ⟨_, step_host hts, hturns, fun j => pressed_keyUp k j _, (keepsBut_setKey k false _).of_turnTaken⟩

/-! Skips (R214, R215) -/

theorem keyOf_eq_of_toNat {b : Byte} {k : Key} (h : b.toNat % 16 = k.toNat) : keyOf b = k :=
  BitVec.eq_of_toNat_eq ((toNat_keyOf b).trans h)

/-- Settles O43: both skips end as `skipIf` does, whose condition is the bit of the key the low nibble names. -/
theorem skipsOnKey : Obligations.SkipsOnKey := by
  unfold Obligations.SkipsOnKey
  intro x k s hk
  have hskp : s.pressed (keyOf (s.reg x)) = true ↔ s.pressed k = true := by rw [keyOf_eq_of_toNat hk]
  have hsknp : (!s.pressed (keyOf (s.reg x))) = true ↔ s.pressed k = false := by
    rw [keyOf_eq_of_toNat hk, Bool.not_eq_true']
  exact ⟨decodeOfEncode (.skp x) rfl, decodeOfEncode (.sknp x) rfl, congrArg _ (s.skipIf_eq hskp),
    congrArg _ (s.skipIf_eq hsknp)⟩

/-! The blocking read (R216, R217) -/

/-- Phase B writes the whole key id: 4 bits fit a byte. -/
theorem toNat_reg_takeKey (s : State) : ((takeKey s).reg s.waitX).toNat = s.respKey.toNat := by
  have hreg : (takeKey s).reg s.waitX = s.respKey.setWidth 8 := s.reg_setReg_self s.waitX _
  have hkey := s.respKey.isLt
  rw [hreg, BitVec.toNat_setWidth]
  omega

theorem keepsBut_takeKey (s : State) : KeepsBut [s.waitX] [.pc, .channel, .run] s (takeKey s) := by
  have htaken : KeepsBut [s.waitX] [.channel, .run] (s.setReg s.waitX (s.respKey.setWidth 8))
      { s.setReg s.waitX (s.respKey.setWidth 8) with respValid := false, run := .run } := by
    simp [KeepsBut, State.reg]
  exact (((KeepsBut.refl s).setReg s.waitX _).trans htaken).advance

/-- The engine's turn with a key handed off is phase B. -/
theorem step_takeKey (he : EngineTurn s) (hr : s.run = .waitKey) (hv : s.respValid = true) :
    step s = .next (takeKey (turnTaken s)) := by
  obtain ⟨hheld, hnext⟩ := he
  exact (step_engineNext hnext).trans ((engineStep_waitKey (s := turnTaken s) hheld hr).trans (if_pos hv))

/-- Settles O44: phase A is the instruction, phase B the engine's step in WAIT_KEY. -/
theorem blockingReadInTwoPhases : Obligations.BlockingReadInTwoPhases := by
  unfold Obligations.BlockingReadInTwoPhases
  refine ⟨fun x s => ⟨decodeOfEncode (.ldVxK x) rfl, rfl⟩, fun s hr hv he => ?_⟩
  exact ⟨_, step_takeKey he hr hv, toNat_reg_takeKey (turnTaken s), rfl, rfl, rfl, rfl, rfl, rfl, rfl,
    (keepsBut_takeKey (turnTaken s)).of_turnTaken⟩

/-! The first key-down (R218) -/

theorem KeepsBut.mono_regs {rs qs : List Reg} {ps : List Part} (h : KeepsBut rs ps s t) (hsub : rs ⊆ qs) :
    KeepsBut qs ps s t := ⟨fun _ hr => h.reg (mt (@hsub _) hr), h.2⟩

theorem KeepsBut.held {rs : List Reg} {ps : List Part} (h : KeepsBut rs ps s t) (hp : Part.held ∉ ps) :
    t.held = s.held := by
  obtain ⟨-, -, -, -, -, -, -, -, -, -, -, -, -, -, -, -, -, hheld⟩ := h
  exact hheld hp

theorem KeepsBut.pc {rs : List Reg} {ps : List Part} (h : KeepsBut rs ps s t) (hp : Part.pc ∉ ps) :
    t.pc = s.pc := by
  obtain ⟨-, -, hpc, -⟩ := h
  exact hpc hp

/-- A key event that cannot hand a key off: a key-up, or any key event with no request pending. -/
def HandsOffNothing (s : State) (e : HostEvent) : Prop :=
  isKeyUp e = true ∨ isKeyEvent e = true ∧ s.reqPending = false

theorem hostStep_keeps_of_handsOffNothing {e : HostEvent} (h : HandsOffNothing s e) :
    KeepsBut [] [.keys] s (hostStep e s) := by
  cases e with
  | keyUp k => exact keepsBut_setKey k false s
  | keyDown k =>
    have hreq : s.reqPending = false := by simpa [HandsOffNothing, isKeyUp, isKeyEvent] using h
    rw [hostStep, keyDown_of_not_pending k hreq]
    exact keepsBut_setKey k true s
  | _ => simp [HandsOffNothing, isKeyUp, isKeyEvent] at h

/-- A run over key events that hand nothing off: the key vector moves, and the turns are taken. -/
theorem run_handsOffNothing (es : List HostEvent) {rest : List Turn} (n : Nat)
    (hes : ∀ e ∈ es, HandsOffNothing s e) (hts : s.turns = es.map Turn.host ++ rest) :
    ∃ t : State, core.run (es.length + n) s = core.run n t ∧ t.turns = rest ∧ KeepsBut [] [.keys, .turns] s t := by
  induction es generalizing s with
  | nil => exact ⟨s, by rw [List.length_nil, Nat.zero_add], hts, .refl s⟩
  | cons e es ih =>
    obtain ⟨he, hes⟩ := List.forall_mem_cons.mp hes
    have hfirst : KeepsBut [] [.keys] (turnTaken s) (hostStep e (turnTaken s)) :=
      hostStep_keeps_of_handsOffNothing (s := turnTaken s) he
    have hkeeps : KeepsBut [] [.keys, .turns] s (hostStep e (turnTaken s)) := hfirst.of_turnTaken
    have hreq := (hkeeps.channel (by simp)).1
    obtain ⟨t, hrun, hturns, hkeeps'⟩ := ih (s := hostStep e (turnTaken s))
      (fun f hf => by rw [HandsOffNothing, hreq]; exact hes f hf)
      (by rw [hfirst.turns (by simp), turnTaken_turns, hts]; rfl)
    refine ⟨t, ?_, hturns, hkeeps.trans hkeeps'⟩
    rw [List.length_cons, Nat.add_right_comm, core_run_succ (step_host hts), hrun]

/-- Settles O45: the key-ups keep the request, the key-down exchanges it for k, with no request left the later key
events keep k, and phase B takes it. -/
theorem firstKeyDownCompletesTheRead : Obligations.FirstKeyDownCompletesTheRead := by
  unfold Obligations.FirstKeyDownCompletesTheRead
  rintro x k before after rest s hbefore hafter hheld hrun hreq - rfl hts
  obtain ⟨a, hrunA, hturnsA, hkeepsA⟩ := run_handsOffNothing (s := s) before (after.length + 1 + 1)
    (fun e he => .inl (List.all_eq_true.mp hbefore e he)) (by simpa using hts)
  obtain ⟨hreqA, -, -, hwaitA⟩ := hkeepsA.channel (by simp)
  obtain ⟨b, hstepB, hturnsB, -, hhanded, -, hwaitB, hkeepsB⟩ := (keyEvents k _ a).1 hturnsA
  obtain ⟨hkeyB, hvalidB, hreqB⟩ := hhanded (hreqA.trans hreq)
  obtain ⟨c, hrunC, hturnsC, hkeepsC⟩ := run_handsOffNothing (s := b) after 1
    (fun e he => .inr ⟨List.all_eq_true.mp hafter e he, hreqB⟩) hturnsB
  obtain ⟨hreqC, hvalidC, hkeyC, hwaitC⟩ := hkeepsC.channel (by simp)
  have hkeeps : KeepsBut [] [.keys, .channel, .turns] s c :=
    ((hkeepsA.mono (by simp)).trans hkeepsB).trans (hkeepsC.mono (by simp))
  have hwait : c.waitX = s.waitX := hwaitC.trans (hwaitB.trans hwaitA)
  have hturn : EngineTurn c := ⟨(hkeeps.held (by simp)).trans hheld, .inr (by rw [hturnsC]; rfl)⟩
  obtain ⟨t, hstepT, hkeyT, hvalidT, hrunT, hpcT, hreqT, -, -, hturnsT, hkeepsT⟩ :=
    blockingReadInTwoPhases.2 c ((hkeeps.run (by simp)).trans hrun) (hvalidC.trans hvalidB) hturn
  rw [hwait] at hkeyT hkeepsT
  refine ⟨t, ?_, ?_, ?_, hrunT, hreqT.trans (hreqC.trans hreqB), hvalidT, ?_, ?_⟩
  · calc core.run (before.length + 1 + after.length + 1) s
        = core.run (before.length + (after.length + 1 + 1)) s := congrArg (core.run · s) (by omega)
      _ = core.run (after.length + 1) b := hrunA.trans (core_run_succ hstepB _)
      _ = .next t := hrunC.trans (core_run_succ hstepT 0)
  · rw [hkeyT, hkeyC, hkeyB]
  · rw [hpcT, hkeeps.pc (by simp)]
  · rw [hturnsT, hturnsC]; rfl
  · exact ((hkeeps.mono_regs (by simp)).mono (by simp)).trans (hkeepsT.mono (by simp))

end Sys2Proof.Machine
end

section
/-! SUPPORT. The timers (47_timers.md): when a timer reads 0, that its value only falls, and that each instruction and
each poll uses the one clock sample it takes. -/

namespace Sys2Proof.Machine

variable {T : Timer} {t u : Nat}

/-! The value (R231, R237) -/

/-- The `v`-th tick comes `v / 60` whole seconds and `v % 60` ticks of the next second after the set. -/
theorem le_ticksIn_iff (v e : Nat) : v ≤ ticksIn e ↔ v / 60 * 1000000 + v % 60 * 16667 ≤ e := by
  simp only [ticksIn, Config.ticksPerSec, Config.secondUs, Config.tickUs]
  omega

theorem timerValue_eq_zero_iff : timerValue T t = 0#8 ↔ T.val.toNat ≤ ticksIn (t - T.tSet) := by
  rw [← BitVec.toNat_inj, toNat_timerValue]
  exact Nat.sub_eq_zero_iff_le

/-- The value falls as the ticks rise. -/
theorem timerValue_antitone (T : Timer) (h : t ≤ u) : (timerValue T u).toNat ≤ (timerValue T t).toNat := by
  rw [toNat_timerValue, toNat_timerValue]
  exact Nat.sub_le_sub_left (ticksIn_mono (Nat.sub_le_sub_right h T.tSet)) T.val.toNat

theorem timerValue_le_val (T : Timer) (t : Nat) : (timerValue T t).toNat ≤ T.val.toNat := by
  rw [toNat_timerValue]
  exact Nat.sub_le _ _

theorem timerValue_zero_stays (h : timerValue T t = 0#8) (htu : t ≤ u) : timerValue T u = 0#8 := by
  rw [timerValue_eq_zero_iff] at h ⊢
  exact h.trans (ticksIn_mono (Nat.sub_le_sub_right htu T.tSet))

/-- Settles O47: the timer reads 0 once as many ticks have come as were set, and the last of them comes at Z(v). -/
theorem timerValueFormula : Obligations.TimerValueFormula := by
  unfold Obligations.TimerValueFormula
  refine fun T t ht => ⟨toNat_timerValue T t, fun h u => timerValue_zero_stays h, ?_⟩
  rw [timerValue_eq_zero_iff, le_ticksIn_iff, Nat.le_sub_iff_add_le' ht]

/-- Settles O48: each whole second of ticks takes 20 microseconds less than 60 ticks of 16667, and a byte holds at most
four of them. -/
theorem timerNeverRises : Obligations.TimerNeverRises := by
  unfold Obligations.TimerNeverRises
  refine ⟨fun T t u _ htu => ⟨timerValue_antitone T htu, timerValue_le_val T t⟩, fun v => ?_⟩
  have := v.isLt
  omega

/-! The instructions and the polls (R232 to R236) -/

/-- A poll moves the clock and what the host has seen, nothing else. -/
theorem keepsBut_polled (s : State) (a b : Option Byte) :
    KeepsBut [] [.clock, .polls] s { s.sampled with dtSeen := a, stSeen := b } := by
  simp [KeepsBut, State.reg]

/-- Once a host event's turn is taken, the turns after it are left. -/
theorem turnTaken_turns_of_host {s : State} {e : HostEvent} {rest : List Turn} (h : s.turns = .host e :: rest) :
    (turnTaken s).turns = rest := by
  rw [turnTaken_turns, h, List.tail_cons]

/-- Settles O49: what is read or stored is the value at the very sample the next state keeps as its clock; the rest is
the frame of the row, or of the poll. -/
theorem timerInstructions : Obligations.TimerInstructions := by
  unfold Obligations.TimerInstructions
  intro x s
  have hnow := s.clock_le_now
  refine ⟨⟨decodeOfEncode (.ldVxDt x) rfl, _, rfl, hnow, rfl, ?_, rfl, exec_frame (i := .ldVxDt x) rfl rfl⟩,
    ⟨decodeOfEncode (.ldDtVx x) rfl, _, rfl, hnow, rfl, rfl, rfl, exec_frame (i := .ldDtVx x) rfl rfl⟩,
    ⟨decodeOfEncode (.ldStVx x) rfl, _, rfl, hnow, rfl, rfl, rfl, exec_frame (i := .ldStVx x) rfl rfl⟩,
    fun rest hts => ?_, fun rest hts => ?_⟩
  · exact s.sampled.reg_setReg_self x (timerValue s.dt s.now)
  · exact ⟨_, step_host hts, hnow, rfl, rfl, rfl, turnTaken_turns_of_host hts,
      (keepsBut_polled (turnTaken s) _ _).of_turnTaken⟩
  · exact ⟨_, step_host hts, hnow, rfl, rfl, rfl, turnTaken_turns_of_host hts,
      (keepsBut_polled (turnTaken s) _ _).of_turnTaken⟩

/-- A read of DT gives the value at the sample it takes, not below the latest, and leaves the timer as it was. -/
theorem exec_ldVxDt_reads {x : Reg} {s t : State} (h : exec (.ldVxDt x) s = .next t) :
    t.reg x = timerValue s.dt t.clock ∧ s.clock ≤ t.clock ∧ t.dt = s.dt := by
  obtain ⟨⟨-, t', he, hclock, -, hreg, -, hkeeps⟩, -⟩ := timerInstructions x s
  cases he.symm.trans h
  exact ⟨hreg, hclock, hkeeps.dt (by simp)⟩

/-- Settles O50: both reads are of the same timer, the second at a sample not below the first's. -/
theorem secondDelayReadIsNotAbove : Obligations.SecondDelayReadIsNotAbove := by
  unfold Obligations.SecondDelayReadIsNotAbove
  intro x y s t u w hfirst hdt hclock hsecond
  obtain ⟨hregT, -, hdtT⟩ := exec_ldVxDt_reads hfirst
  obtain ⟨hregW, hclockW, -⟩ := exec_ldVxDt_reads hsecond
  rw [hregT, hregW, hdt, hdtT]
  exact timerValue_antitone s.dt (hclock.trans hclockW)

end Sys2Proof.Machine
end

section
/-! SUPPORT. The no-op family (48_noop_sys.md) and the exceptions (60_exceptions.md): each row of the fault table
raises its own record, a step into FAULT writes that record alone, and every step answers. -/

namespace Sys2Proof.Machine

variable {i : Instr} {s t : State} {c : FaultCode}

/-- Settles O13: a SYS that is not the word of CLS or RET is well-formed, so its word decodes to it. -/
theorem sysOnlyAdvances : Obligations.SysOnlyAdvances := by
  unfold Obligations.SysOnlyAdvances
  refine fun nnn s => ⟨fun hcls hret => ?_, rfl, rfl, rfl⟩
  have hwf : WellFormed (.sys nnn) = true := by simp [WellFormed, hcls, hret]
  exact decodeOfEncode (.sys nnn) hwf

/-! The fault table (R251, R252) -/

/-- The address a fault's record holds (60_exceptions.md R251, R254; log entry 21): pc for a fetch, I for the other
accesses, none where no address is at fault. -/
def offendingAddr (s : State) (c : FaultCode) : Option Word :=
  match c with
  | .addrFetch => some s.pc
  | .addrBcd | .addrStore | .addrLoad | .addrSprite => some s.i
  | .noFault | .decode | .stackOverflow | .stackUnderflow | .addrCall => none

/-- An instruction whose row of the table holds raises that row's fault, with its own word and the address at fault. -/
theorem exec_of_faultOf_eq_some (hf : faultOf i s = some c) :
    exec i s = raise c (some (encode i)) (offendingAddr s c) s := by
  cases i with
  | call nnn =>
    obtain ⟨hsp, rfl⟩ : s.sp.val = 16 ∧ .stackOverflow = c := by simpa [faultOf] using hf
    exact exec_call_of_full nnn hsp
  | ret =>
    obtain ⟨hsp, rfl⟩ : s.sp.val = 0 ∧ .stackUnderflow = c := by simpa [faultOf] using hf
    exact exec_ret_of_empty hsp
  | ldB x =>
    obtain ⟨hi, rfl⟩ : s.i.toNat + 2 > 4095 ∧ .addrBcd = c := by simpa [faultOf] using hf
    exact exec_ldB_of_gt hi
  | storeRegs x =>
    obtain ⟨hi, rfl⟩ : s.i.toNat + x.toNat > 4095 ∧ .addrStore = c := by simpa [faultOf] using hf
    exact exec_storeRegs_of_gt hi
  | loadRegs x =>
    obtain ⟨hi, rfl⟩ : s.i.toNat + x.toNat > 4095 ∧ .addrLoad = c := by simpa [faultOf] using hf
    exact exec_loadRegs_of_gt hi
  | drw x y n =>
    obtain ⟨⟨hn, hi⟩, hc⟩ := Option.ite_none_right_eq_some.mp hf
    cases hc
    exact exec_drw_of_gt (Nat.ne_of_gt hn) hi
  | _ => cases hf

/-- The codes a decoded instruction can raise: those of the two stack faults and of the four accesses at I. -/
theorem mem_codes_of_faultOf_eq_some (hf : faultOf i s = some c) :
    c ∈ [FaultCode.stackOverflow, .stackUnderflow, .addrBcd, .addrStore, .addrLoad, .addrSprite] := by
  cases i with
  | call _ | ret | ldB _ | storeRegs _ | loadRegs _ | drw _ _ _ =>
    obtain ⟨-, hc⟩ := Option.ite_none_right_eq_some.mp hf
    cases hc
    decide
  | _ => cases hf

/-- Of an instruction's faults the two of the stack have no address, the others have I. -/
theorem offendingAddr_of_faultOf_eq_some (hf : faultOf i s = some c) :
    offendingAddr s c = if c = .stackOverflow ∨ c = .stackUnderflow then none else some s.i := by
  have hc := mem_codes_of_faultOf_eq_some hf
  cases c with
  | noFault | decode | addrCall | addrFetch => simp at hc
  | stackOverflow | stackUnderflow | addrBcd | addrStore | addrLoad | addrSprite => rfl

theorem KeepsBut.fault {rs : List Reg} {ps : List Part} (h : KeepsBut rs ps s t) (hp : Part.fault ∉ ps) :
    t.fault = s.fault := by
  obtain ⟨-, -, -, -, -, -, -, -, -, -, -, hfault, -⟩ := h
  exact hfault hp

theorem fault_notMem_partsWritten (i : Instr) : Part.fault ∉ partsWritten i := by
  cases i <;> simp [partsWritten]

/-- An instruction that raises no fault does not enter FAULT. -/
theorem exec_run_ne_fault (he : exec i s = .next t) (hf : faultOf i s = none) (hr : s.run ≠ .fault) :
    t.run ≠ .fault := by
  rcases exec_run_cases he hf with hsame | ⟨_, _, hwait⟩ | ⟨_, _, _, _, hhalt⟩
  · rwa [hsame]
  · simp [hwait]
  · simp [hhalt]

/-- Settles O11, by whether a row of the table holds: its fault if one does, the frame of the instruction if none. -/
theorem instructionsFaultExactlyWhenListed : Obligations.InstructionsFaultExactlyWhenListed := by
  unfold Obligations.InstructionsFaultExactlyWhenListed
  intro i s
  cases hf : faultOf i s with
  | some c =>
    refine ⟨_, exec_of_faultOf_eq_some hf, ?_, nofun⟩
    rintro _ ⟨⟩
    rw [offendingAddr_of_faultOf_eq_some hf]
  | none =>
    obtain ⟨t, he, hkeeps⟩ := exec_next_of_faultOf_none hf
    exact ⟨t, he, nofun, fun _ => ⟨hkeeps.fault (fault_notMem_partsWritten i), exec_run_ne_fault he hf⟩⟩

/-! Entering FAULT (R254) -/

/-- A running engine that enters FAULT raises: before the fetch, after it, or as the decoded instruction, and the
record's word is what was fetched. -/
theorem runInstruction_enters_fault (hr : s.run ≠ .fault) (h : runInstruction s = .next t) (ht : t.run = .fault) :
    ∃ c, c ≠ .noFault ∧ runInstruction s = raise c (fetch s) (offendingAddr s c) s := by
  cases hw : fetch s with
  | none => exact ⟨.addrFetch, nofun, runInstruction_of_fetch_none hw⟩
  | some w =>
    cases hi : decodeWord w with
    | error r => exact ⟨.decode, nofun, runInstruction_of_decode_error hw hi⟩
    | ok i =>
      have hexec := runInstruction_of_decode_ok hw hi
      cases hf : faultOf i s with
      | none => exact absurd ht (exec_run_ne_fault (hexec.symm.trans h) hf hr)
      | some c =>
        refine ⟨c, fun hc => faultOf_ne_noFault i s (hc ▸ hf), ?_⟩
        rw [hexec, exec_of_faultOf_eq_some hf, (encodeOfDecode w i hi).1]

/-- Settles O10: only a running engine's turn enters FAULT, and there it raises. -/
theorem faultEntryIsPrecise : Obligations.FaultEntryIsPrecise := by
  unfold Obligations.FaultEntryIsPrecise
  intro s t hne h ht
  obtain ⟨-, hfault, -⟩ := runStateTransitions s t h
  obtain ⟨hr, he⟩ := (hfault ht).resolve_left hne
  have hrun := (step_run he hr).symm.trans h
  obtain ⟨c, hc, hraise⟩ := runInstruction_enters_fault (s := turnTaken s) hne hrun ht
  cases hraise.symm.trans hrun
  refine ⟨rfl, hc, rfl, rfl, ?_, ?_, ?_⟩
  · rintro rfl
    rfl
  · intro hmem
    cases c with
    | addrBcd | addrStore | addrLoad | addrSprite => rfl
    | _ => simp at hmem
  · intro hmem
    cases c with
    | decode | stackOverflow | stackUnderflow => rfl
    | _ => simp at hmem

/-! Every step answers (R264) -/

theorem runInstruction_answers (s : State) : ∃ t, runInstruction s = .next t := by
  cases hw : fetch s with
  | none => exact ⟨_, runInstruction_of_fetch_none hw⟩
  | some w =>
    cases hi : decodeWord w with
    | error r => exact ⟨_, runInstruction_of_decode_error hw hi⟩
    | ok i =>
      obtain ⟨t, he, -⟩ := instructionsFaultExactlyWhenListed i s
      exact ⟨t, (runInstruction_of_decode_ok hw hi).trans he⟩

theorem engineStep_answers (s : State) : ∃ t, engineStep s = .next t := by
  unfold engineStep enabledStep
  split_ifs
  · exact ⟨_, rfl⟩
  · exact runInstruction_answers s
  · exact ⟨_, rfl⟩

/-- Settles O12, by whose turn it is; a refused load writes `held` alone. -/
theorem everyStepAnswers : Obligations.EveryStepAnswers := by
  unfold Obligations.EveryStepAnswers
  intro s
  constructor
  · rcases turn_cases s with hengine | ⟨e, rest, hhost⟩
    · rw [step_engineNext hengine]
      exact engineStep_answers _
    · exact ⟨_, step_host hhost⟩
  · intro e rest hts hrefused
    rw [step_host hts, hostStep_refused hrefused, turnTaken, hts, List.tail_cons]

end Sys2Proof.Machine
end

section
/-! SUPPORT. Reset (70_reset_and_hazards.md R280, R281): what memory holds once an image is loaded over a fill, and that
a reset event restarts the machine. -/

namespace Sys2Proof.Machine

variable {m : Memory} {cells fill : List Host.Cell} {image : List Byte} {a k : Nat} {b : Byte}

/-! The fill (10_state.md R35) -/

/-- A cell in the font range writes nothing. -/
theorem Memory.fillWith_cons_of_font (h : 0x100 ≤ a ∧ a < 0x150) (m : Memory) :
    m.fillWith ((a, b) :: cells) = m.fillWith cells := if_pos h

theorem Memory.fillWith_cons_of_not_font (h : ¬(0x100 ≤ a ∧ a < 0x150)) (m : Memory) :
    m.fillWith ((a, b) :: cells) = (m.write a b).fillWith cells := if_neg h

/-- The fill leaves alone the font range and every address it does not list. -/
theorem Memory.read_fillWith_of_unwritten (h : a ∈ cells.map Prod.fst → 0x100 ≤ a ∧ a < 0x150) :
    (m.fillWith cells).read a = m.read a := by
  induction cells generalizing m with
  | nil => rfl
  | cons cell cells ih =>
    obtain ⟨j, c⟩ := cell
    rw [List.map_cons, List.mem_cons] at h
    have hrest (n : Memory) : (n.fillWith cells).read a = n.read a := ih fun ha => h (.inr ha)
    by_cases hfont : 0x100 ≤ j ∧ j < 0x150
    · rw [fillWith_cons_of_font hfont, hrest]
    · have hne : j ≠ a := by
        rintro rfl
        exact hfont (h (.inl rfl))
      rw [fillWith_cons_of_not_font hfont, hrest, read_write_ne m hne]

/-- What the fill lists outside the font range is what is read there, each address listed once. -/
theorem Memory.read_fillWith_of_mem (hm : m.wf = true) (hnodup : (cells.map Prod.fst).Nodup) (ha : a < 4096)
    (hfont : ¬(0x100 ≤ a ∧ a < 0x150)) (hmem : (a, b) ∈ cells) : (m.fillWith cells).read a = b := by
  induction cells generalizing m with
  | nil => cases hmem
  | cons cell cells ih =>
    obtain ⟨j, c⟩ := cell
    obtain ⟨hnotin, hnodup⟩ := List.nodup_cons.mp hnodup
    rcases List.mem_cons.mp hmem with heq | hmem
    · cases heq
      rw [fillWith_cons_of_not_font hfont, read_fillWith_of_unwritten fun hin => absurd hin hnotin,
        read_write hm ha, if_pos rfl]
    · by_cases hj : 0x100 ≤ j ∧ j < 0x150
      · rw [fillWith_cons_of_font hj, ih hm hnodup hmem]
      · rw [fillWith_cons_of_not_font hj, ih (wf_write hm j c) hnodup hmem]

/-! What is loaded -/

theorem unlisted_of_not_font (h : ¬(0x100 ≤ a ∧ a < 0x150)) : unlisted a = 0#8 := by
  by_cases hle : 0x100 ≤ a
  · have hlength : fontBytes.length ≤ a - 0x100 := show 80 ≤ a - 0x100 by omega
    exact (if_pos hle).trans (List.getD_eq_default _ _ hlength)
  · exact if_neg hle

theorem read_loadedMemory_image (hfits : image.length ≤ 3584) (hk : k < image.length) :
    some ((loadedMemory image fill).read (0x200 + k)) = image[k]? := by
  have hin : Config.progBase + image.length ≤ Config.memSize := show 0x200 + image.length ≤ 4096 by omega
  have hread : (loadedMemory image fill).read (0x200 + k) = image.getD k 0#8 :=
    Memory.read_writeBytes_add (Memory.wf_fillWith rfl fill) hin hk
  rw [hread, List.getD_eq_getElem _ _ hk, List.getElem?_eq_getElem hk]

/-- Outside the image the fill is what is read. -/
theorem read_loadedMemory_outside (h : ¬(0x200 ≤ a ∧ a < 0x200 + image.length)) :
    (loadedMemory image fill).read a = (Memory.fillWith [] fill).read a :=
  Memory.read_writeBytes_outside _ 0x200 image (by omega)

theorem read_loadedMemory_font (hk : k < 80) :
    some ((loadedMemory image fill).read (0x100 + k)) = fontBytes[k]? := by
  rw [read_loadedMemory_outside (by omega), Memory.read_fillWith_of_unwritten fun _ => by omega]
  exact Memory.read_nil_font hk

/-- Elsewhere: what the fill lists, and 0 where it lists nothing. -/
theorem read_loadedMemory_fill (hnodup : (fill.map Prod.fst).Nodup) (ha : a < 4096)
    (hfont : ¬(0x100 ≤ a ∧ a < 0x150)) (himage : ¬(0x200 ≤ a ∧ a < 0x200 + image.length)) :
    (∀ b, (a, b) ∈ fill → (loadedMemory image fill).read a = b) ∧
      (a ∉ fill.map Prod.fst → (loadedMemory image fill).read a = 0#8) := by
  rw [read_loadedMemory_outside himage]
  refine ⟨fun b => Memory.read_fillWith_of_mem rfl hnodup ha hfont, fun hnotin => ?_⟩
  rw [Memory.read_fillWith_of_unwritten fun hin => absurd hin hnotin]
  exact unlisted_of_not_font hfont

/-- Settles O56: the load is accepted, so every field is as `resetWith` writes it. -/
theorem resetEventRestartsTheMachine : Obligations.ResetEventRestartsTheMachine := by
  unfold Obligations.ResetEventRestartsTheMachine
  intro e image fill rest s hts hcarries hfits hnodup
  have hstep : step s = .next (resetWith image fill (turnTaken s)) := by
    rw [step_host hts, hostStep_carries hcarries, loadOrRefuse_of_le hfits]
  exact ⟨_, hstep, reg_reset, rfl, rfl, rfl, rfl, rfl, rfl, rfl, s.clock_le_now, pressed_reset, rfl, rfl,
    Frame.pixel_blank, rfl, rfl, turnTaken_turns_of_host hts, fun _ => read_loadedMemory_image hfits,
    fun _ => read_loadedMemory_font, fun _ => read_loadedMemory_fill hnodup⟩

end Sys2Proof.Machine
end

section
/-! SUPPORT. A jump to its own address (40_fetch_dispatch.md R126, 70_reset_and_hazards.md R288): a machine that stands
at one, running or halted, stays there whatever comes but a reset. -/

namespace Sys2Proof.Machine

variable {s t : State}

/-- The machine runs or is halted at a jump to its own address, its channel clean. -/
structure AtSelfJump (s : State) : Prop where
  run_or_halt : s.run = .run ∨ s.run = .halt
  no_request : s.reqPending = false
  no_response : s.respValid = false
  selfJump : ∃ w nnn, fetch s = some w ∧ decodeWord w = .ok (.jp nnn) ∧ nnn.toNat = s.pc.toNat

theorem KeepsBut.mem {rs : List Reg} {ps : List Part} (h : KeepsBut rs ps s t) (hp : Part.mem ∉ ps) (a : Nat) :
    t.mem.read a = s.mem.read a := by
  obtain ⟨-, -, -, hmem, -⟩ := h
  exact hmem hp a

/-- The word fetched is what the bytes at pc and pc + 1 are. -/
theorem fetch_of_keepsBut {rs : List Reg} {ps : List Part} (h : KeepsBut rs ps s t) (hpc : Part.pc ∉ ps)
    (hmem : Part.mem ∉ ps) : fetch t = fetch s := by
  simp only [fetch, h.pc hpc, h.mem hmem]

/-- Nothing a step at a self-jump may move is what holds the machine there. -/
theorem AtSelfJump.of_keepsBut (h : AtSelfJump s) (hkeeps : KeepsBut [] [.keys, .run, .clock, .polls, .turns] s t)
    (hrun : t.run = s.run ∨ t.run = .halt) : AtSelfJump t := by
  obtain ⟨hreq, hresp, -⟩ := hkeeps.channel (by simp)
  refine ⟨?_, hreq.trans h.no_request, hresp.trans h.no_response, ?_⟩
  · rcases hrun with hrun | hrun
    · exact hrun ▸ h.run_or_halt
    · exact .inr hrun
  · rw [fetch_of_keepsBut hkeeps (by simp) (by simp), hkeeps.pc (by simp)]
    exact h.selfJump

/-- R126: a jump to its own address halts or does nothing, by the detector. -/
theorem exec_jp_self {nnn : BitVec 12} (h : nnn.toNat = s.pc.toNat) :
    ∃ t, exec (.jp nnn) s = .next t ∧ KeepsBut [] [.run] s t ∧ (t.run = s.run ∨ t.run = .halt) := by
  have hself : nnn.setWidth 16 = s.pc := BitVec.eq_of_toNat_eq ((toNat_zextAddr nnn).trans h)
  have hexec := (jpJumpsOrHalts nnn s).2
  cases hdetector : Config.selfJumpHalt with
  | true =>
    rw [if_pos ⟨hself, hdetector⟩] at hexec
    exact ⟨_, hexec, by simp [KeepsBut, State.reg], .inr rfl⟩
  | false =>
    rw [if_neg (by simp [hdetector]), hself] at hexec
    exact ⟨s, hexec, .refl s, .inl rfl⟩

theorem engineStep_of_atSelfJump (h : AtSelfJump s) :
    ∃ t, engineStep s = .next t ∧ KeepsBut [] [.run] s t ∧ (t.run = s.run ∨ t.run = .halt) := by
  cases hh : s.held with
  | true => exact ⟨s, engineStep_held hh, .refl s, .inl rfl⟩
  | false =>
    rcases h.run_or_halt with hr | hr
    · obtain ⟨w, nnn, hw, hi, hself⟩ := h.selfJump
      rw [engineStep_run hh hr, runInstruction_of_decode_ok hw hi]
      exact exec_jp_self hself
    · exact ⟨s, engineStep_ended (runEnded_iff.mpr (.inl hr)), .refl s, .inl rfl⟩

/-- With the channel clean a host event that is no reset leaves the channel alone, and moves the run only to HALT. -/
theorem hostStep_of_clean_channel {e : HostEvent} (he : isReset e = false) (hreq : s.reqPending = false)
    (hresp : s.respValid = false) : KeepsBut [] [.keys, .run, .clock, .polls] s (hostStep e s) := by
  cases e with
  | keyDown k => exact (hostStep_keeps_of_handsOffNothing (.inr ⟨rfl, hreq⟩)).mono (by simp)
  | keyUp k => exact (hostStep_keeps_of_handsOffNothing (.inl rfl)).mono (by simp)
  | stop =>
    rcases s.run.live_or_ended with hr | hr
    · rw [hostStep, stopRun_of_live hr]
      simp [KeepsBut, State.reg, hreq, hresp]
    · rw [hostStep, stopRun_of_ended hr]
      exact .refl s
  | reset image fill => cases he
  | resetText text fill => cases he
  | pollDt => exact (keepsBut_polled s _ _).mono (by simp)
  | pollSt => exact (keepsBut_polled s _ _).mono (by simp)

theorem turnTaken_atSelfJump (h : AtSelfJump s) : AtSelfJump (turnTaken s) :=
  h.of_keepsBut ((turnTaken_keeps s).mono (by simp)) (.inl rfl)

/-- One step at a self-jump with no reset next. -/
theorem step_of_atSelfJump (h : AtSelfJump s) (hno : noReset s.turns = true) :
    ∃ t, step s = .next t ∧ t.turns = s.turns.tail ∧ AtSelfJump t ∧
      KeepsBut [] [.keys, .run, .clock, .polls, .turns] s t := by
  suffices hnext : ∃ t, step s = .next t ∧ KeepsBut [] [.keys, .run, .clock, .polls] (turnTaken s) t ∧
      (t.run = s.run ∨ t.run = .halt) by
    obtain ⟨t, hstep, hkeeps, hrun⟩ := hnext
    exact ⟨t, hstep, hkeeps.turns (by simp), h.of_keepsBut hkeeps.of_turnTaken hrun, hkeeps.of_turnTaken⟩
  rcases turn_cases s with hengine | ⟨e, rest, hhost⟩
  · obtain ⟨t, hstep, hkeeps, hrun⟩ := engineStep_of_atSelfJump (turnTaken_atSelfJump h)
    exact ⟨t, (step_engineNext hengine).trans hstep, hkeeps.mono (by simp), hrun⟩
  · have he : isReset e = false := isReset_of_noReset_cons (hhost ▸ hno)
    exact ⟨_, step_host hhost, hostStep_of_clean_channel (s := turnTaken s) he h.no_request h.no_response,
      (hostStep_frame he (turnTaken s)).2⟩

/-- Any number of steps. -/
theorem run_of_atSelfJump (steps : Nat) (h : AtSelfJump s) (hno : noReset s.turns = true) :
    ∃ t, core.run steps s = .next t ∧ AtSelfJump t ∧ KeepsBut [] [.keys, .run, .clock, .polls, .turns] s t := by
  induction steps generalizing s with
  | zero => exact ⟨s, core_run_zero s, h, .refl s⟩
  | succ steps ih =>
    obtain ⟨u, hstep, hturns, hu, hkeeps⟩ := step_of_atSelfJump h hno
    obtain ⟨t, hrun, ht, hkeeps'⟩ := ih hu (hturns ▸ noReset_tail hno)
    exact ⟨t, (core_run_succ hstep steps).trans hrun, ht, hkeeps.trans hkeeps'⟩

/-- Settles O59: standing at the jump is kept by every step, and such a machine runs or is halted. -/
theorem jumpToSelfChangesNothingEver : Obligations.JumpToSelfChangesNothingEver := by
  unfold Obligations.JumpToSelfChangesNothingEver
  rintro s w nnn steps hr ⟨-, hclear, -⟩ hw hi hself hno
  obtain ⟨hreq, hresp⟩ := hclear (by simp [hr])
  obtain ⟨t, hrun, ht, hkeeps⟩ := run_of_atSelfJump steps ⟨.inl hr, hreq, hresp, w, nnn, hw, hi, hself⟩ hno
  exact ⟨t, hrun, ht.run_or_halt, hkeeps⟩

end Sys2Proof.Machine
end
